-- ==== Sys2Proof/Word.lean ====
section
/-! DEFINITION. The word types of the hardware (spec 00_scope.md R7, R8; 10_state.md R11, R13): plain
bit vectors. Every quantity of this hardware is unsigned. -/

namespace Sys2Proof

/-- An 8-bit value: a general register, a timer, a byte of main memory (R11, R17, R19). -/
abbrev Byte := BitVec 8

/-- A 16-bit value: `PC`, `I`, a stack entry, an instruction word (R13, R16, R18, R60). -/
abbrev Word := BitVec 16

/-- A 4-bit register index `x` or `y`, always in 0..15 (R11, R62); also a row count `n` and a key index. -/
abbrev Nibble := BitVec 4

/-- The 12-bit immediate `nnn` (R62). -/
abbrev Addr12 := BitVec 12

end Sys2Proof
end

