-- ==== Sys2Proof/Machine/Operation.lean ====
section
/-! DEFINITION. The operations of the block (spec 60_exceptions.md R180): everything that drives it from
outside, as plain data, so that a State can hold which of them the environment performs next, and the two
ways an environment can go on. -/

namespace Sys2Proof.Machine

/-- One operation of the block (R180). Each is atomic (R184). -/
inductive Operation where
  /-- `Reset()`: the host; never fails (R199). -/
  | reset
  /-- `LoadProgram(bytes)`: the host (R200). -/
  | loadProgram (bytes : List Byte)
  /-- `Step()`: the core agent executes one instruction (R181). -/
  | step
  /-- `Tick()`: the timer agent, one 60 Hz decay (R182). -/
  | tick
  /-- `StepWithDecay(k)`: `Step`, then `k` `Tick`s, one event (R183). -/
  | stepWithDecay (k : Nat)
  /-- `SetPressed(k, p)`: the host (R192). `k` is a plain number because the interface leaves it to the
  host to keep it in 0..15; a call with `k > 15` is refused (decision D27). -/
  | setPressed (k : Nat) (p : Bool)
  /-- `ReadVideo()`: the host reads the 2048 cells (R198). -/
  | readVideo
  /-- The host reads `STATUS` (R22, R180). -/
  | readStatus
  deriving DecidableEq, Repr, Inhabited

/-- What the environment performs after the operations that stand in a State's schedule (log 4). -/
inductive Environment where
  /-- `Step`, for ever: the environment of a program that runs undisturbed. -/
  | onlySteps
  /-- Any infinite sequence of operations (R184): the free values `Config.operation n`,
  `Config.operation (n + 1)`, .... -/
  | free (n : Nat)
  deriving DecidableEq, Repr

end Sys2Proof.Machine
end

