-- ==== Sys2Proof/Config.lean ====
section
/-! DEFINITION. The parameters of the hardware (spec 00_scope.md R5) and the model's two free values, the
random byte (41_load_alu.md R112, decision D13) and the operation a free environment performs
(60_exceptions.md R184). Two parameters of R5 have no definition here because no rule
depends on them: `TIMER_RATE` and `INSTR_RATE` (70_reset_and_hazards.md R231). -/

namespace Sys2Proof

/-- `MEM_SIZE`: main memory has addresses 0 to 4095 (R5, R19). -/
abbrev Config.memSize : Nat := 4096

/-- `PROG_BASE`: where `LoadProgram` puts the image and the entry point it sets (R5, R23). -/
abbrev Config.progBase : Nat := 0x200

/-- `ROM_MAX`: the longest image `LoadProgram` accepts (R5, R200). -/
abbrev Config.romMax : Nat := 3584

/-- `VW`: columns of video memory (R5, R140). -/
abbrev Config.videoWidth : Nat := 64

/-- `VH`: rows of video memory (R5, R140). -/
abbrev Config.videoHeight : Nat := 32

/-- `VRAM_CELLS`: cells of video memory, indices 0 to 2047 (R5, R20). -/
abbrev Config.videoCells : Nat := 2048

/-- The number of keys, indices 0 to 15 (R5, R21). -/
abbrev Config.keyCount : Nat := 16

/-- The DEFAULT value of the parameter `FONT[0..79]`: the table of 10_state.md R24, glyph by glyph.
PRESUMED (log 1): the spec gives this table as a default "from general knowledge, not in source"
(decision D14). No instruction's meaning reads it; a machine with another font is a State whose `font`
field holds other bytes. -/
def Config.fontDefault : Vector Byte 80 :=
  #v[0xF0, 0x90, 0x90, 0x90, 0xF0,  0x20, 0x60, 0x20, 0x20, 0x70,
     0xF0, 0x10, 0xF0, 0x80, 0xF0,  0xF0, 0x10, 0xF0, 0x10, 0xF0,
     0x90, 0x90, 0xF0, 0x10, 0x10,  0xF0, 0x80, 0xF0, 0x10, 0xF0,
     0xF0, 0x80, 0xF0, 0x90, 0xF0,  0xF0, 0x10, 0x20, 0x40, 0x40,
     0xF0, 0x90, 0xF0, 0x90, 0xF0,  0xF0, 0x90, 0xF0, 0x10, 0xF0,
     0xF0, 0x90, 0xF0, 0x90, 0x90,  0xE0, 0x90, 0xE0, 0x90, 0xE0,
     0xF0, 0x80, 0x80, 0x80, 0xF0,  0xE0, 0x90, 0x90, 0x90, 0xE0,
     0xF0, 0x80, 0xF0, 0x80, 0xF0,  0xF0, 0x80, 0xF0, 0x80, 0x80]

/-- FREE VALUE (log 2): `Config.draw k` is the `k`-th byte the environment's random source answers
(`draw8()`, R112, R202, decision D13: any value 0..255, under no law). It has no body, so nothing can
be proved about it and every claim holds for every sequence of draws. -/
opaque Config.draw : Nat → Byte

/-- FREE VALUE (log 4): `Config.operation n` is the `n`-th operation of a free environment, which performs
any infinite sequence of operations, in any order and any proportion (60_exceptions.md R184). It has no
body, so every claim about a free environment holds for every such sequence; that `Tick`s or presses keep
coming (fairness) is a premise about it. -/
opaque Config.operation : Nat → Machine.Operation

end Sys2Proof
end

