-- ==== Sys2Proof/Syntax.lean ====
section
/-! DEFINITION. The 34 instructions (spec 30_encoding.md R64, R65), one constructor for each row of
spec/opcode_table.json, in the table's order. Fields are as R62 names them. -/

namespace Sys2Proof

/-- An instruction with its fields. `shr` and `shl` carry the `y` field of their words although their
meaning does not read it (R70: "`8xy6` ignores the value of `Vy` but `y` may be any nibble"). -/
inductive Instr where
  /-- `00E0` `CLS`: clear video memory (R141). -/
  | cls
  /-- `00EE` `RET`: pop the return address into `PC` (R81). -/
  | ret
  /-- `1nnn` `JP nnn` (R82). -/
  | jp (nnn : Addr12)
  /-- `2nnn` `CALL nnn` (R83). -/
  | call (nnn : Addr12)
  /-- `3xnn` `SE Vx, nn` (R84). -/
  | seImm (x : Nibble) (nn : Byte)
  /-- `4xnn` `SNE Vx, nn` (R85). -/
  | sneImm (x : Nibble) (nn : Byte)
  /-- `5xy0` `SE Vx, Vy` (R86). -/
  | seReg (x y : Nibble)
  /-- `6xnn` `LD Vx, nn` (R101). -/
  | ldImm (x : Nibble) (nn : Byte)
  /-- `7xnn` `ADD Vx, nn` (R102). -/
  | addImm (x : Nibble) (nn : Byte)
  /-- `8xy0` `LD Vx, Vy` (R103). -/
  | ldReg (x y : Nibble)
  /-- `8xy1` `OR Vx, Vy` (R104). -/
  | orReg (x y : Nibble)
  /-- `8xy2` `AND Vx, Vy` (R105). -/
  | andReg (x y : Nibble)
  /-- `8xy3` `XOR Vx, Vy` (R106). -/
  | xorReg (x y : Nibble)
  /-- `8xy4` `ADD Vx, Vy` (R107). -/
  | addReg (x y : Nibble)
  /-- `8xy5` `SUB Vx, Vy` (R108). -/
  | subReg (x y : Nibble)
  /-- `8xy6` `SHR Vx` (R109). -/
  | shr (x y : Nibble)
  /-- `8xy7` `SUBN Vx, Vy` (R110). -/
  | subn (x y : Nibble)
  /-- `8xyE` `SHL Vx` (R111). -/
  | shl (x y : Nibble)
  /-- `9xy0` `SNE Vx, Vy` (R87). -/
  | sneReg (x y : Nibble)
  /-- `Annn` `LD I, nnn` (R121). -/
  | ldI (nnn : Addr12)
  /-- `Bnnn` `JP V0, nnn` (R88). -/
  | jpV0 (nnn : Addr12)
  /-- `Cxnn` `RND Vx, nn` (R112). -/
  | rnd (x : Nibble) (nn : Byte)
  /-- `Dxyn` `DRW Vx, Vy, n` (R142). -/
  | drw (x y n : Nibble)
  /-- `Ex9E` `SKP Vx` (R151). -/
  | skp (x : Nibble)
  /-- `ExA1` `SKNP Vx` (R152). -/
  | sknp (x : Nibble)
  /-- `Fx07` `LD Vx, DT` (R153). -/
  | ldVxDT (x : Nibble)
  /-- `Fx0A` `LD Vx, K` (R154). -/
  | ldVxK (x : Nibble)
  /-- `Fx15` `LD DT, Vx` (R155). -/
  | ldDT (x : Nibble)
  /-- `Fx18` `LD ST, Vx` (R156). -/
  | ldST (x : Nibble)
  /-- `Fx1E` `ADD I, Vx` (R122). -/
  | addI (x : Nibble)
  /-- `Fx29` `LD F, Vx` (R123). -/
  | ldF (x : Nibble)
  /-- `Fx33` `LD B, Vx` (R124). -/
  | ldB (x : Nibble)
  /-- `Fx55` `LD [I], Vx` (R125). -/
  | storeRegs (x : Nibble)
  /-- `Fx65` `LD Vx, [I]` (R126). -/
  | loadRegs (x : Nibble)
  deriving DecidableEq, Repr

end Sys2Proof
end

