-- ==== Sys2Proof/WellFormed.lean ====
section
/-! DEFINITION. What is well formed: an instruction (always: its field types hold exactly the values its
word can hold), an operation of the host (the duties of 60_exceptions.md R201), a ROM image (R200). -/

namespace Sys2Proof

/-- Within an implemented instruction every field value is legal (30_encoding.md R70), and each field's
type holds exactly the values of its bits (R62), so there is no ill-formed instruction to refuse. -/
def Instr.wellFormed (_ : Instr) : Bool := true

/-- A ROM image `LoadProgram` accepts: at most 3584 bytes; the empty image is legal (R200). -/
def romWellFormed (bytes : List Byte) : Bool := bytes.length ≤ Config.romMax

/-- A call the host may make: `SetPressed` with a key in 0..15 (R192, R201), `LoadProgram` with an image
that fits (R201); every other operation has no argument to get wrong. -/
def Machine.Operation.wellFormed : Machine.Operation → Bool
  | .setPressed k _ => k < Config.keyCount
  | .loadProgram bytes => romWellFormed bytes
  | .reset | .step | .tick | .stepWithDecay _ | .readVideo | .readStatus => true

end Sys2Proof
end

