-- ==== Sys2Proof/Decode.lean ====
section
/-! DEFINITION. Decoding and encoding (spec 30_encoding.md R60 to R70). The opcode map is the list
`opcodeRows`, one row for each row of R65 in its order; a word selects a row iff
`(op & mask) == match` (R64). The encoder is written from the formats of R61, not from the decoder. -/

namespace Sys2Proof

/-- Field `x` = `op[11:8]` (R62). -/
def fieldX (op : Word) : Nibble := op.extractLsb' 8 4

/-- Field `y` = `op[7:4]` (R62). -/
def fieldY (op : Word) : Nibble := op.extractLsb' 4 4

/-- Field `n` = `op[3:0]` (R62). -/
def fieldN (op : Word) : Nibble := op.extractLsb' 0 4

/-- Field `nn` = `op[7:0]` (R62). -/
def fieldNN (op : Word) : Byte := op.extractLsb' 0 8

/-- Field `nnn` = `op[11:0]` (R62). -/
def fieldNNN (op : Word) : Addr12 := op.extractLsb' 0 12

/-- One row of the opcode map (R65): the bits that select it and how its fields are read. -/
structure OpcodeRow where
  /-- The bits that belong to the opcode. -/
  mask : Word
  /-- Their values. -/
  pattern : Word
  /-- The instruction a selected word stands for. -/
  build : Word → Instr

/-- `(op & mask) == match` (R64). -/
def OpcodeRow.selects (r : OpcodeRow) (op : Word) : Bool := op &&& r.mask == r.pattern

/-- Rows of the families `N3` = 0 to 7 (R65, R66, R68). -/
def opcodeRowsLow : List OpcodeRow :=
  [ ⟨0xFFFF, 0x00E0, fun _ => .cls⟩,
    ⟨0xFFFF, 0x00EE, fun _ => .ret⟩,
    ⟨0xF000, 0x1000, fun op => .jp (fieldNNN op)⟩,
    ⟨0xF000, 0x2000, fun op => .call (fieldNNN op)⟩,
    ⟨0xF000, 0x3000, fun op => .seImm (fieldX op) (fieldNN op)⟩,
    ⟨0xF000, 0x4000, fun op => .sneImm (fieldX op) (fieldNN op)⟩,
    ⟨0xF00F, 0x5000, fun op => .seReg (fieldX op) (fieldY op)⟩,
    ⟨0xF000, 0x6000, fun op => .ldImm (fieldX op) (fieldNN op)⟩,
    ⟨0xF000, 0x7000, fun op => .addImm (fieldX op) (fieldNN op)⟩ ]

/-- Rows of the family `N3` = 8, selected by `N0` (R65, R67). -/
def opcodeRowsAlu : List OpcodeRow :=
  [ ⟨0xF00F, 0x8000, fun op => .ldReg (fieldX op) (fieldY op)⟩,
    ⟨0xF00F, 0x8001, fun op => .orReg (fieldX op) (fieldY op)⟩,
    ⟨0xF00F, 0x8002, fun op => .andReg (fieldX op) (fieldY op)⟩,
    ⟨0xF00F, 0x8003, fun op => .xorReg (fieldX op) (fieldY op)⟩,
    ⟨0xF00F, 0x8004, fun op => .addReg (fieldX op) (fieldY op)⟩,
    ⟨0xF00F, 0x8005, fun op => .subReg (fieldX op) (fieldY op)⟩,
    ⟨0xF00F, 0x8006, fun op => .shr (fieldX op) (fieldY op)⟩,
    ⟨0xF00F, 0x8007, fun op => .subn (fieldX op) (fieldY op)⟩,
    ⟨0xF00F, 0x800E, fun op => .shl (fieldX op) (fieldY op)⟩ ]

/-- Rows of the families `N3` = 9 to D (R65, R68). -/
def opcodeRowsHigh : List OpcodeRow :=
  [ ⟨0xF00F, 0x9000, fun op => .sneReg (fieldX op) (fieldY op)⟩,
    ⟨0xF000, 0xA000, fun op => .ldI (fieldNNN op)⟩,
    ⟨0xF000, 0xB000, fun op => .jpV0 (fieldNNN op)⟩,
    ⟨0xF000, 0xC000, fun op => .rnd (fieldX op) (fieldNN op)⟩,
    ⟨0xF000, 0xD000, fun op => .drw (fieldX op) (fieldY op) (fieldN op)⟩ ]

/-- Rows of the families `N3` = E and F, selected by the low byte (R65, R68). -/
def opcodeRowsKeysAndMisc : List OpcodeRow :=
  [ ⟨0xF0FF, 0xE09E, fun op => .skp (fieldX op)⟩,
    ⟨0xF0FF, 0xE0A1, fun op => .sknp (fieldX op)⟩,
    ⟨0xF0FF, 0xF007, fun op => .ldVxDT (fieldX op)⟩,
    ⟨0xF0FF, 0xF00A, fun op => .ldVxK (fieldX op)⟩,
    ⟨0xF0FF, 0xF015, fun op => .ldDT (fieldX op)⟩,
    ⟨0xF0FF, 0xF018, fun op => .ldST (fieldX op)⟩,
    ⟨0xF0FF, 0xF01E, fun op => .addI (fieldX op)⟩,
    ⟨0xF0FF, 0xF029, fun op => .ldF (fieldX op)⟩,
    ⟨0xF0FF, 0xF033, fun op => .ldB (fieldX op)⟩,
    ⟨0xF0FF, 0xF055, fun op => .storeRegs (fieldX op)⟩,
    ⟨0xF0FF, 0xF065, fun op => .loadRegs (fieldX op)⟩ ]

/-- The opcode map of R65: 34 rows, disjoint, so their order does not matter (R64). -/
def opcodeRows : List OpcodeRow :=
  opcodeRowsLow ++ opcodeRowsAlu ++ opcodeRowsHigh ++ opcodeRowsKeysAndMisc

/-- Why bytes are not an instruction. -/
inductive DecodeReject where
  /-- The word matches no row of R65: the spec's `Unimplemented` (R64, R70). -/
  | unimplemented (op : Word)
  /-- Fewer than the two bytes of an instruction (R60). `Step` never meets it: fetch reads two bytes. -/
  | tooShort (length : Nat)
  deriving DecidableEq, Repr

/-- Decoding: a total function of the word alone (R64, R71). -/
def decode (op : Word) : Except DecodeReject Instr :=
  match opcodeRows.find? (fun r => r.selects op) with
  | some r => .ok (r.build op)
  | none => .error (.unimplemented op)

/-- The word of two bytes, `hi * 256 + lo` (20_memory.md R44). -/
def wordOfBytes (hi lo : Byte) : Word := hi.setWidth 16 <<< 8 ||| lo.setWidth 16

/-- The bytes of a word as memory holds them, high byte at the lower address (R44, R60). -/
def bytesOfWord (op : Word) : List Byte := [op.extractLsb' 8 8, op.extractLsb' 0 8]

/-- Decoding on any bytes: the instruction at their front and the bytes after it. -/
def decodeBytes : List Byte → Except DecodeReject (Instr × List Byte)
  | hi :: lo :: rest =>
    match decode (wordOfBytes hi lo) with
    | .ok i => .ok (i, rest)
    | .error r => .error r
  | [b] => .error (.tooShort [b].length)
  | [] => .error (.tooShort 0)

/-- Format `NNN`: opcode nibble, `nnn` (R61). -/
def formatNNN (n3 : Nibble) (nnn : Addr12) : Word := n3.setWidth 16 <<< 12 ||| nnn.setWidth 16

/-- Formats `XNN` and `X`: opcode nibble, `x`, a byte that is `nn` or the sub-function (R61). -/
def formatXNN (n3 x : Nibble) (low : Byte) : Word :=
  n3.setWidth 16 <<< 12 ||| x.setWidth 16 <<< 8 ||| low.setWidth 16

/-- Formats `XY` and `XYN`: opcode nibble, `x`, `y`, a nibble that is the sub-function or `n` (R61). -/
def formatXYN (n3 x y n0 : Nibble) : Word :=
  n3.setWidth 16 <<< 12 ||| x.setWidth 16 <<< 8 ||| y.setWidth 16 <<< 4 ||| n0.setWidth 16

/-- The word of an instruction (R61, R65). -/
def encode : Instr → Word
  | .cls => 0x00E0
  | .ret => 0x00EE
  | .jp nnn => formatNNN 0x1 nnn
  | .call nnn => formatNNN 0x2 nnn
  | .seImm x nn => formatXNN 0x3 x nn
  | .sneImm x nn => formatXNN 0x4 x nn
  | .seReg x y => formatXYN 0x5 x y 0x0
  | .ldImm x nn => formatXNN 0x6 x nn
  | .addImm x nn => formatXNN 0x7 x nn
  | .ldReg x y => formatXYN 0x8 x y 0x0
  | .orReg x y => formatXYN 0x8 x y 0x1
  | .andReg x y => formatXYN 0x8 x y 0x2
  | .xorReg x y => formatXYN 0x8 x y 0x3
  | .addReg x y => formatXYN 0x8 x y 0x4
  | .subReg x y => formatXYN 0x8 x y 0x5
  | .shr x y => formatXYN 0x8 x y 0x6
  | .subn x y => formatXYN 0x8 x y 0x7
  | .shl x y => formatXYN 0x8 x y 0xE
  | .sneReg x y => formatXYN 0x9 x y 0x0
  | .ldI nnn => formatNNN 0xA nnn
  | .jpV0 nnn => formatNNN 0xB nnn
  | .rnd x nn => formatXNN 0xC x nn
  | .drw x y n => formatXYN 0xD x y n
  | .skp x => formatXNN 0xE x 0x9E
  | .sknp x => formatXNN 0xE x 0xA1
  | .ldVxDT x => formatXNN 0xF x 0x07
  | .ldVxK x => formatXNN 0xF x 0x0A
  | .ldDT x => formatXNN 0xF x 0x15
  | .ldST x => formatXNN 0xF x 0x18
  | .addI x => formatXNN 0xF x 0x1E
  | .ldF x => formatXNN 0xF x 0x29
  | .ldB x => formatXNN 0xF x 0x33
  | .storeRegs x => formatXNN 0xF x 0x55
  | .loadRegs x => formatXNN 0xF x 0x65

/-- The two bytes of an instruction in memory. -/
def encodeBytes (i : Instr) : List Byte := bytesOfWord (encode i)

/-- The instruction's bytes for a word numbered as spec/opcode_table.json numbers it: bit 0 is the least
significant bit of the one 16-bit word, and bits from `nbits` on are zero. -/
def tableBytes (nbits w : Nat) : List Byte := bytesOfWord (BitVec.ofNat 16 (w % 2 ^ nbits))

/-- What the decoder reads from such a word; `none` where it rejects it. -/
def decodeTableWord (nbits w : Nat) : Option Instr :=
  match decodeBytes (tableBytes nbits w) with
  | .ok (i, _) => some i
  | .error _ => none

end Sys2Proof
end

