-- ==== Sys2Proof/Machine/State.lean ====
section
/-! DEFINITION. The state of the hardware (spec 10_state.md R10 to R24) as plain data, the fatal
conditions (60_exceptions.md R170), the events and outputs (R180, R188), the reasons a step can stop,
and the state after reset (R23). Fields carry the spec's names; the five fields the spec does not count
as state (R25) stand last and are marked as the model's own. -/

namespace Sys2Proof.Machine

/-- The store an out-of-bounds index belongs to (60_exceptions.md R170, `info` of `OutOfBounds`). -/
inductive Space where
  /-- Main memory: the index is an address of 4096 or more. -/
  | mem
  /-- Video memory: the index is a cell number of 2048 or more. -/
  | video
  /-- The key states: the index is 16 or more. -/
  | key
  deriving DecidableEq, Repr

/-- A fatal condition with the value it records, `Fatal(cause, info)` (R22, R170). -/
inductive FatalCondition where
  /-- Cause 1: `Step` fetched a word that is no instruction; `info` is the word (R172). -/
  | unimplementedOpcode (op : Word)
  /-- Cause 2: `00EE` with an empty call stack; no `info` (R173). -/
  | stackUnderflow
  /-- Cause 3: a memory address, cell index or key index out of bounds (R174). -/
  | outOfBounds (space : Space) (index : Nat)
  deriving DecidableEq, Repr

/-- `STATUS` (R22). -/
inductive Status where
  /-- Operations are accepted. -/
  | running
  /-- A fatal condition was raised; only `Reset` changes any state (R177, R185). -/
  | fatal (cause : FatalCondition)
  deriving DecidableEq, Repr

/-- The event one `Step` or `Tick` returns (R188). `DisplayUpdated` carries no copy: its payload is the
video memory itself (43_display.md R143), read by `displayView`. -/
inductive Event where
  /-- Code 0. -/
  | none
  /-- Code 1, for the display sink. -/
  | displayUpdated
  /-- Code 2, for the audio sink. -/
  | startBeep
  /-- Code 3, for the audio sink. -/
  | stopBeep
  deriving DecidableEq, Repr

/-- What `LoadProgram` returns to the host (R175, R200). -/
inductive LoadResult where
  /-- The image was accepted. -/
  | ok
  /-- The image is longer than 3584 bytes; nothing was changed. -/
  | loadError (length : Nat)
  deriving DecidableEq, Repr

/-- Video memory (10_state.md R20): 32 rows of 64 one-bit cells. The cell of column `c` in row `r` is
bit `c` of row `r`; the linear index `64*r + c` of the spec is read and written by `Video.cell` and
`Video.flip` alone. -/
abbrev Video := Vector (BitVec 64) 32

/-- Main memory (R19): the cells that differ from what an unlisted address reads as
(`Memory.unlisted`), by strictly rising address (`Memory.wf`; log 3). -/
abbrev Memory := List Host.Cell

/-- What an operation gives back to its caller (R180, column "output"). -/
inductive Output where
  /-- `Reset` and `SetPressed` output nothing. -/
  | nothing
  /-- `Step`, `Tick` and `StepWithDecay` output exactly one event. -/
  | event (e : Event)
  /-- `LoadProgram` outputs `Ok` or `LoadError(len)`. -/
  | load (r : LoadResult)
  /-- `ReadVideo` outputs the 2048 cells. -/
  | video (cells : Video)
  /-- Reading `STATUS` outputs it. -/
  | status (s : Status)
  deriving DecidableEq, Repr

/-- The state of the machine. -/
structure State where
  /-- `V[0..15]`, general registers; `VF` = register 15 is the flag (R11, R12). -/
  v : Vector Byte 16
  /-- `PC` (R13 to R15): unmasked 16 bits. -/
  pc : Word
  /-- `I` (R16): unmasked 16 bits. -/
  i : Word
  /-- `DT`, the delay timer (R17, R186). -/
  dt : Byte
  /-- `ST`, the sound timer (R17, R187). -/
  st : Byte
  /-- `Stack`, the call stack, top first, without a depth limit (R18). -/
  stack : List Word
  /-- `Mem[0..4095]` (R19). -/
  mem : Memory
  /-- `VRAM[0..2047]` (R20). -/
  video : Video
  /-- `Key[0..15]`, true while pressed (R21). -/
  keys : Vector Bool 16
  /-- `awaiting`: a key wait is armed (R21). -/
  awaiting : Bool
  /-- `last_press`: the most recent press, if any (R21). -/
  lastPress : Option Nibble
  /-- `STATUS` (R22). -/
  status : Status
  /-- MODEL'S OWN (log 1): the parameter `FONT[0..79]` of this machine (R24, decision D14), which `Reset`
  writes to `0x000`-`0x04F`. No operation changes it, so a claim for every state is one for every font. -/
  font : Vector Byte 80
  /-- MODEL'S OWN (log 2): how many random bytes have been drawn; it selects the next free value. -/
  drawCount : Nat
  /-- MODEL'S OWN (log 4): the operations the environment performs next, the next one first. -/
  schedule : List Operation
  /-- MODEL'S OWN (log 4): what the environment performs once `schedule` is empty (R184). -/
  environment : Environment
  /-- MODEL'S OWN (log 5): the output of the most recent operation. -/
  output : Output
  deriving DecidableEq, Repr

/-- The reasons a step can stop with a fault: NONE. Every fatal condition of the spec is taken as it
describes it (R171): a next state whose `STATUS` holds the cause. Raised by nobody; safe (log 8). -/
inductive Fault where
  deriving DecidableEq, Repr

/-- The reasons an operation is refused. -/
inductive Refusal where
  /-- Raised by `exec` for an instruction that has no meaning yet (no arm of this model does). Safe. -/
  | notModelled (mnemonic : String)
  /-- Raised by the operation `SetPressed(k, p)` with `k > 15`: "outside the interface and the model
  refuses it" (R192, decision D27). No instruction raises it. Safe: a stop instead of an effect. -/
  | keyOutsideInterface (k : Nat)
  /-- Raised by the operation `LoadProgram` on a running core in a state that is not one `Reset`
  produced: "refuses it elsewhere" (R200, decision D29; log 7). No instruction raises it. Safe. -/
  | loadNotAfterReset
  deriving DecidableEq, Repr

/-- The state after `Reset` (R23) of a machine with the default font: every register 0, the stack empty,
memory holding the font and zeros (nothing listed), video off, no key, `Running`. The model's own fields:
the default font (PRESUMED, log 1), no draw made, an empty schedule with nothing but `Step`s
after it, and no output (DESIGN CHOICE, logs 2, 4, 5). -/
def State.reset : State where
  v := Vector.replicate 16 0
  pc := 0
  i := 0
  dt := 0
  st := 0
  stack := []
  mem := []
  video := Vector.replicate 32 0
  keys := Vector.replicate 16 false
  awaiting := false
  lastPress := .none
  status := .running
  font := Config.fontDefault
  drawCount := 0
  schedule := []
  environment := .onlySteps
  output := .nothing

/-- The outcome of one operation. -/
abbrev Result := Host.Outcome State Fault Refusal

end Sys2Proof.Machine
end

