-- ==== Sys2Proof/Machine/Flags.lean ====
section
/-! DEFINITION. Every value written to `VF` as a flag (spec 10_state.md R12), the beep edge of the sound
timer (60_exceptions.md R187) and the numeric codes of causes and events (R170, R188). -/

namespace Sys2Proof.Machine

/-- The index of the flag register `VF` (R12). -/
def vf : Nibble := 15

/-- Carry of `8xy4`: 1 if the sum exceeds 255 (41_load_alu.md R107). -/
def carryFlag (a b : Byte) : Byte := if a.toNat + b.toNat > 255 then 1 else 0

/-- Not-borrow of `a - b`: 1 if no borrow was needed, so 1 for equal operands (R108, R110). -/
def notBorrowFlag (a b : Byte) : Byte := if a.toNat ≥ b.toNat then 1 else 0

/-- The bit `8xy6` shifts out, 0 or 1 (R109). -/
def shiftRightFlag (a : Byte) : Byte := a &&& 1

/-- The bit `8xyE` shifts out, NOT normalised: 0x00 or 0x80 (R111). -/
def shiftLeftFlag (a : Byte) : Byte := a &&& 0x80

/-- Collision of `Dxyn`: 1 if a cell went from on to off (43_display.md R142). -/
def collisionFlag (hit : Bool) : Byte := if hit then 1 else 0

/-- The event of an operation that takes the sound timer from `before` to `after`: its transition
between zero and a positive value (R187, R189). -/
def beepEvent (before after : Byte) : Event :=
  if before = 0 ∧ after ≠ 0 then .startBeep
  else if before ≠ 0 ∧ after = 0 then .stopBeep
  else .none

/-- The cause code of a fatal condition (R170, decision D18). -/
def FatalCondition.code : FatalCondition → Nat
  | .unimplementedOpcode _ => 1
  | .stackUnderflow => 2
  | .outOfBounds _ _ => 3

/-- The event code (R188, decision D18). -/
def Event.code : Event → Nat
  | .none => 0
  | .displayUpdated => 1
  | .startBeep => 2
  | .stopBeep => 3

end Sys2Proof.Machine
end

