-- ==== Sys2Proof/Machine/Operands.lean ====
section
/-! DEFINITION. The operand forms (spec 30_encoding.md R63, 42_index_memory.md R120, 43_display.md R142):
immediates, widening, address ranges and their bounds checks, sprite geometry, decimal digits. -/

namespace Sys2Proof.Machine

/-- `zext_16` of the 12-bit immediate (00_scope.md R8, R63). -/
def zext12 (nnn : Addr12) : Word := nnn.setWidth 16

/-- `zext_16` of a byte (R8). -/
def zext8 (b : Byte) : Word := b.setWidth 16

/-- A key index as a register value, 0 to 15 (44_keys_timers.md R154). -/
def keyByte (k : Nibble) : Byte := k.setWidth 8

/-- The bounds check of main memory (20_memory.md R46, R47): for an access of `n` bytes at `base`, the
lowest address of the range that is 4096 or more, if there is one. Addresses are unbounded integers. -/
def firstOutside (base n : Nat) : Option Nat :=
  if 0 < n ∧ base + n > Config.memSize then some (max base Config.memSize) else none

/-- The column a draw starts at: `Vx mod 64` (R142). -/
def originColumn (b : Byte) : Nat := b.toNat % Config.videoWidth

/-- The row a draw starts at: `Vy mod 32` (R142). -/
def originRow (b : Byte) : Nat := b.toNat % Config.videoHeight

/-- The linear index of the cell in column `c` and row `r` (43_display.md R140). -/
abbrev cellIndex (c r : Nat) : Nat := Config.videoWidth * r + c

/-- The bounds check of video memory (R142, 20_memory.md R53): the largest cell index of the 8-by-`n`
rectangle at column `x0`, row `y0`, if it is 2048 or more. It looks at the rectangle, not at the bits. -/
def spriteOutside (x0 y0 n : Nat) : Option Nat :=
  if 0 < n ∧ cellIndex x0 (y0 + n - 1) + 7 ≥ Config.videoCells then
    some (cellIndex x0 (y0 + n - 1) + 7)
  else none

/-- The address of font glyph `d`: `5 * d`, the whole byte, unmasked (42_index_memory.md R123). -/
def glyphAddress (d : Byte) : Word := 5 * zext8 d

/-- The three decimal digits of a byte, hundreds first, each a whole byte (R124). -/
def bcdDigits (b : Byte) : List Byte :=
  [BitVec.ofNat 8 (b.toNat / 100), BitVec.ofNat 8 (b.toNat / 10 % 10), BitVec.ofNat 8 (b.toNat % 10)]

end Sys2Proof.Machine
end

