-- ==== Sys2Proof/Machine/Ops.lean ====
section
/-! DEFINITION. The named operations over registers, memory and video memory, how an instruction ends,
taking a fatal condition (spec 60_exceptions.md R171) with `Reset` beside it, the only way out of one
(R177, R199), and fetch (R181). Every meaning goes through these. -/

namespace Sys2Proof.Machine

/-! ### General registers (10_state.md R11) -/

/-- `V[x]`. -/
def readReg (s : State) (x : Nibble) : Byte := s.v[x.toNat]'x.isLt

/-- `V[x] <- b`. -/
def writeReg (x : Nibble) (b : Byte) (s : State) : State := { s with v := s.v.set x.toNat b x.isLt }

/-- `V[x] <- b`, then `V[F] <- flag`: the order of `8xy4`, `8xy5`, `8xy7`, the flag last
(41_load_alu.md R113). -/
def writeRegThenFlag (x : Nibble) (b flag : Byte) (s : State) : State :=
  writeReg vf flag (writeReg x b s)

/-- The order of the shifts: `V[F] <- flag (V[x])` first, then `V[x]` is read AGAIN and replaced by
`shift` of it (R109, R111, decision D8). -/
def writeFlagThenShift (x : Nibble) (flag shift : Byte → Byte) (s : State) : State :=
  let t := writeReg vf (flag (readReg s x)) s
  writeReg x (shift (readReg t x)) t

/-! ### Main memory (20_memory.md) -/

/-- What an address reads as that memory does not list: the contents after reset with the default font,
which is the font table at `0x000`-`0x04F` and 0 elsewhere (10_state.md R23, R24; logs 1 and 3). -/
def Memory.unlisted (a : Nat) : Byte := Config.fontDefault[a]?.getD 0

/-- The byte at address `a`. Every use of it stands behind a bounds check (R46). -/
def Memory.read : Memory → Nat → Byte
  | [], a => Memory.unlisted a
  | (b, y) :: rest, a => if b = a then y else Memory.read rest a

/-- Store the byte `x` at address `a`, keeping the canonical form: writing what an unlisted address
reads as removes the entry. -/
def Memory.write : Memory → Nat → Byte → Memory
  | [], a, x => if x = Memory.unlisted a then [] else [(a, x)]
  | (b, y) :: rest, a, x =>
    if a < b then
      if x = Memory.unlisted a then (b, y) :: rest else (a, x) :: (b, y) :: rest
    else if a = b then
      if x = Memory.unlisted a then rest else (a, x) :: rest
    else (b, y) :: Memory.write rest a x

/-- Every address of the list is above `low` and below 4096, addresses rise strictly, and no entry is
what its address would read as unlisted. -/
def Memory.wfFrom : Option Nat → Memory → Bool
  | _, [] => true
  | low, (b, y) :: rest =>
    low.all (· < b) && b < Config.memSize && y != Memory.unlisted b && Memory.wfFrom (some b) rest

/-- The canonical form of memory (log 3). -/
def Memory.wf (m : Memory) : Bool := Memory.wfFrom none m

/-- The `n` bytes at `a`, lowest address first (`MemRead`, 00_scope.md R8). -/
def Memory.readBytes (m : Memory) (a : Nat) : Nat → List Byte
  | 0 => []
  | n + 1 => m.read a :: Memory.readBytes m (a + 1) n

/-- Store bytes at `a`, `a + 1`, ..., lowest address first (`MemWrite`, R8). -/
def Memory.writeBytes (m : Memory) (a : Nat) : List Byte → Memory
  | [] => m
  | b :: bs => Memory.writeBytes (m.write a b) (a + 1) bs

/-- Memory after reset of a machine whose parameter `FONT` is `font`: the font at 0, zeros elsewhere
(R23). -/
def fontMemory (font : Vector Byte 80) : Memory := Memory.writeBytes [] 0 font.toList

/-! ### Video memory (43_display.md R140) -/

/-- The cell with linear index `k`: column `k mod 64` of row `k div 64`. -/
def Video.cell (v : Video) (k : Nat) : Bool :=
  (v[k / Config.videoWidth]?.getD 0).getLsbD (k % Config.videoWidth)

/-- `VRAM[k] <- VRAM[k] ^ 1`. -/
def Video.flip (v : Video) (k : Nat) : Video :=
  v.setIfInBounds (k / Config.videoWidth)
    (v[k / Config.videoWidth]?.getD 0 ^^^ BitVec.twoPow 64 (k % Config.videoWidth))

/-- Every cell off. -/
def Video.blank : Video := Vector.replicate 32 0

/-! ### How an instruction ends (10_state.md R14, 60_exceptions.md R188) -/

/-- The instruction is done: `PC` is `target` and the `Step` outputs the event `e`. -/
def finish (target : Word) (e : Event) (s : State) : State :=
  { s with pc := target, output := .event e }

/-- A next state with `pc <- target` and the event `e`. -/
def jumpTo (target : Word) (e : Event) (s : State) : Result := .next (finish target e s)

/-- The default end: `pc <- PC + 2` (R14). -/
def advance (e : Event) (s : State) : Result := jumpTo (s.pc + 2) e s

/-- `pc <- PC + 4` if the condition holds, else `pc <- PC + 2`; no event (40_control_flow.md R80). -/
def skipIf (c : Bool) (s : State) : Result :=
  if c then jumpTo (s.pc + 4) .none s else advance .none s

/-! ### Taking a fatal condition, and leaving it -/

/-- The state after `raise Fatal(cause, info)` in the state `s` before the `Step`: `STATUS` records the
cause, the output is the event `None`, everything else is as it was, `PC` included (R171). -/
def withFatal (f : FatalCondition) (s : State) : State :=
  { s with status := .fatal f, output := .event .none }

/-- `raise Fatal(cause, info)`. Every check stands before the first write of its instruction, so the
state given is the one before the `Step` (R171). -/
def raiseFatal (f : FatalCondition) (s : State) : Result := .next (withFatal f s)

/-- `Reset()` from any state, the only way out of a fatal condition (R177, R199): every piece of state at
its reset value (R23), memory with this machine's own font; the environment and its
source of draws go on. -/
def resetFrom (s : State) : State :=
  { State.reset with
    mem := fontMemory s.font, font := s.font, drawCount := s.drawCount
    schedule := s.schedule, environment := s.environment }

/-- Go on with `go` if the `n` bytes at `base` all lie in memory, else raise `OutOfBounds (Mem, a)`
(20_memory.md R46). -/
def checkMem (base n : Nat) (s : State) (go : Result) : Result :=
  match firstOutside base n with
  | some a => raiseFatal (.outOfBounds .mem a) s
  | none => go

/-- Go on with `go` if the 8-by-`n` rectangle lies in video memory, else raise
`OutOfBounds (Video, kmax)` (43_display.md R142). -/
def checkVideo (x0 y0 n : Nat) (s : State) (go : Result) : Result :=
  match spriteOutside x0 y0 n with
  | some k => raiseFatal (.outOfBounds .video k) s
  | none => go

/-- Go on with the pressed state of key `k` if `k` is at most 15, else raise `OutOfBounds (Key, k)`
(44_keys_timers.md R151, R152; `Key[k]` is the latch's `IsPressed(k)`, 60_exceptions.md R193). -/
def withKey (k : Byte) (s : State) (go : Bool → Result) : Result :=
  if h : k.toNat < 16 then go s.keys[k.toNat] else raiseFatal (.outOfBounds .key k.toNat) s

/-! ### The random source -/

/-- The state after one draw: the next `draw8()` is another free value (R112, R202; log 2). -/
def consumeDraw (s : State) : State := { s with drawCount := s.drawCount + 1 }

/-! ### Fetch (60_exceptions.md R181, 20_memory.md R44) -/

/-- `Fetch16(PC)`: the byte at `PC` is the high byte. -/
def fetchWord (s : State) : Word := wordOfBytes (s.mem.read s.pc.toNat) (s.mem.read (s.pc.toNat + 1))

/-- Fetch with its bounds check: the word, or the lowest address outside memory (R46, R181). -/
def fetch (s : State) : Except Nat Word :=
  match firstOutside s.pc.toNat 2 with
  | some a => .error a
  | none => .ok (fetchWord s)

/-- The state `s` with the bytes of a table word placed where the next fetch reads (log 4): at `PC`, or
at `0x200` when `PC` leaves no room for a word. The core is running, and its next operation and
all after it are `Step`s. -/
def placeWord (nbits w : Nat) (s : State) : State :=
  let at_ : Word := if s.pc.toNat + 2 ≤ Config.memSize then s.pc else BitVec.ofNat 16 Config.progBase
  { s with
    pc := at_, mem := s.mem.writeBytes at_.toNat (tableBytes nbits w)
    status := .running, schedule := [], environment := .onlySteps }

end Sys2Proof.Machine
end

