-- ==== Sys2Proof/Machine/ControlFlow.lean ====
section
/-! DEFINITION. Control-flow instructions (spec 40_control_flow.md R80 to R88). None writes `VF`, a
general register, `I`, memory or a timer; none emits an event. -/

namespace Sys2Proof.Machine

/-- `00EE` (R81): `StackUnderflow` on an empty stack; else `PC` is the popped value, as it is. -/
def execRet (s : State) : Result :=
  match s.stack with
  | [] => raiseFatal .stackUnderflow s
  | t :: rest => jumpTo t .none { s with stack := rest }

/-- `1nnn` (R82). -/
def execJp (nnn : Addr12) (s : State) : Result := jumpTo (zext12 nnn) .none s

/-- `2nnn` (R83): push `PC + 2`, then jump. -/
def execCall (nnn : Addr12) (s : State) : Result :=
  jumpTo (zext12 nnn) .none { s with stack := (s.pc + 2) :: s.stack }

/-- `Bnnn` (R88): the register is always `V0`; the sum is not masked. -/
def execJpV0 (nnn : Addr12) (s : State) : Result := jumpTo (zext8 (readReg s 0) + zext12 nnn) .none s

/-- `3xnn` (R84). -/
def execSeImm (x : Nibble) (nn : Byte) (s : State) : Result := skipIf (readReg s x == nn) s

/-- `4xnn` (R85). -/
def execSneImm (x : Nibble) (nn : Byte) (s : State) : Result := skipIf (readReg s x != nn) s

/-- `5xy0` (R86). -/
def execSeReg (x y : Nibble) (s : State) : Result := skipIf (readReg s x == readReg s y) s

/-- `9xy0` (R87). -/
def execSneReg (x y : Nibble) (s : State) : Result := skipIf (readReg s x != readReg s y) s

end Sys2Proof.Machine
end

