-- ==== Sys2Proof/Machine/Display.lean ====
section
/-! DEFINITION. Display instructions (spec 43_display.md R140 to R143) and what the host sees of video
memory. -/

namespace Sys2Proof.Machine

/-- `00E0` (R141): every cell off; `VF` is not written; event `None` (decision D11). -/
def execCls (s : State) : Result := advance .none { s with video := Video.blank }

/-- One cell of a draw: where the sprite's bit is 1 the cell is flipped, and a cell that was on is a
collision (R142). The pair is the video memory so far and the collision so far. -/
def drawCell (p : Video × Bool) (k : Nat) (bit : Bool) : Video × Bool :=
  if bit then (p.1.flip k, p.2 || p.1.cell k) else p

/-- One sprite row: the byte `b` at the cells `k0` to `k0 + 7`, bit 7 leftmost (R140). The index is
linear: a row that passes column 63 goes on in the next row (R142). -/
def drawRow (p : Video × Bool) (k0 : Nat) (b : Byte) : Video × Bool :=
  [0, 1, 2, 3, 4, 5, 6, 7].foldl (fun q c => drawCell q (k0 + c) (b.getLsbD (7 - c))) p

/-- The rows of a sprite, the first at cell `k0`, each next one 64 cells on. -/
def drawRows (p : Video × Bool) (k0 : Nat) : List Byte → Video × Bool
  | [] => p
  | b :: bs => drawRows (drawRow p k0 b) (k0 + Config.videoWidth) bs

/-- `Dxyn` (R142): coordinates first, memory check before video check, both before any write; `VF` is
the collision flag, written last on every execution; event `DisplayUpdated`. -/
def execDrw (x y n : Nibble) (s : State) : Result :=
  let x0 := originColumn (readReg s x)
  let y0 := originRow (readReg s y)
  checkMem s.i.toNat n.toNat s <| checkVideo x0 y0 n.toNat s <|
    let drawn := drawRows (s.video, false) (cellIndex x0 y0) (s.mem.readBytes s.i.toNat n.toNat)
    advance .displayUpdated (writeReg vf (collisionFlag drawn.2) { s with video := drawn.1 })

/-- The view the host is given with `DisplayUpdated` and by `ReadVideo`: 2048 bytes 0 or 1, row-major
(R143, 60_exceptions.md R198). -/
def displayView (v : Video) : List Byte :=
  (List.range Config.videoCells).map fun k => if v.cell k then 1 else 0

end Sys2Proof.Machine
end

