-- ==== Sys2Proof/Machine/IndexMemory.lean ====
section
/-! DEFINITION. Index-register and memory instructions (spec 42_index_memory.md R120 to R126). `I` is
never modified by a memory instruction; the whole range is checked before a byte moves. -/

namespace Sys2Proof.Machine

/-- `Annn` (R121). -/
def execLdI (nnn : Addr12) (s : State) : Result := advance .none { s with i := zext12 nnn }

/-- `Fx1E` (R122): modulo 65536, no flag. -/
def execAddI (x : Nibble) (s : State) : Result :=
  advance .none { s with i := s.i + zext8 (readReg s x) }

/-- `Fx29` (R123): the whole of `Vx`, unmasked. -/
def execLdF (x : Nibble) (s : State) : Result :=
  advance .none { s with i := glyphAddress (readReg s x) }

/-- `Fx33` (R124): hundreds, tens and ones at `I`, `I + 1`, `I + 2`. -/
def execLdB (x : Nibble) (s : State) : Result :=
  checkMem s.i.toNat 3 s
    (advance .none { s with mem := s.mem.writeBytes s.i.toNat (bcdDigits (readReg s x)) })

/-- The registers `V0` to `Vx`, in order. -/
def regsUpTo (s : State) (x : Nibble) : List Byte := s.v.toList.take (x.toNat + 1)

/-- `Fx55` (R125): `V0` to `Vx` (inclusive) at `I`, `I + 1`, .... -/
def execStoreRegs (x : Nibble) (s : State) : Result :=
  checkMem s.i.toNat (x.toNat + 1) s
    (advance .none { s with mem := s.mem.writeBytes s.i.toNat (regsUpTo s x) })

/-- The register file with `V0` to `Vx` replaced by the bytes at `I`, `I + 1`, .... -/
def loadedRegs (s : State) (x : Nibble) : Vector Byte 16 :=
  Vector.ofFn fun k : Fin 16 => if k.val ≤ x.toNat then s.mem.read (s.i.toNat + k.val) else s.v[k]

/-- `Fx65` (R126): `V0` to `Vx` (inclusive) from `I`, `I + 1`, .... -/
def execLoadRegs (x : Nibble) (s : State) : Result :=
  checkMem s.i.toNat (x.toNat + 1) s (advance .none { s with v := loadedRegs s x })

end Sys2Proof.Machine
end

