-- ==== Sys2Proof/Machine/KeysTimers.lean ====
section
/-! DEFINITION. Key and timer instructions (spec 44_keys_timers.md R150 to R156), the Input Latch
(60_exceptions.md R191 to R197) and the timers' decay (R182). -/

namespace Sys2Proof.Machine

/-! ### The Input Latch -/

/-- The state after arming a key wait: earlier presses are forgotten (R196). -/
def armWait (s : State) : State := { s with awaiting := true, lastPress := none }

/-- The state after disarming: `last_press` is left as it is (R196, decision D31). -/
def disarmWait (s : State) : State := { s with awaiting := false }

/-- `PollWaitForKey()` (R196): what it returns, and the state after it. -/
def pollWaitForKey (s : State) : Option Nibble × State :=
  if s.awaiting then
    match s.lastPress with
    | some k => (some k, disarmWait s)
    | none => (none, s)
  else (none, armWait s)

/-- What `SetPressed(k, p)` does to the latch of a running core (R192). -/
def recordKey (k : Nibble) (p : Bool) (s : State) : State :=
  { s with
    keys := s.keys.set k.toNat p k.isLt
    lastPress := if p then some k else s.lastPress }

/-! ### The timers -/

/-- One step of a countdown, clamped at zero (10_state.md R17). -/
def countDown (b : Byte) : Byte := if b = 0 then 0 else b - 1

/-- What `Tick()` does on a running core: both timers count down (R182). -/
def decayTimers (s : State) : State := { s with dt := countDown s.dt, st := countDown s.st }

/-! ### The instructions -/

/-- `Ex9E` (R151). -/
def execSkp (x : Nibble) (s : State) : Result :=
  withKey (readReg s x) s fun pressed => skipIf pressed s

/-- `ExA1` (R152). -/
def execSknp (x : Nibble) (s : State) : Result :=
  withKey (readReg s x) s fun pressed => skipIf (!pressed) s

/-- `Fx07` (R153). -/
def execLdVxDT (x : Nibble) (s : State) : Result := advance .none (writeReg x s.dt s)

/-- `Fx0A` (R154): with no captured key `PC` stays, so the next `Step` polls again; with one, it goes to
`Vx` and `PC` advances. -/
def execLdVxK (x : Nibble) (s : State) : Result :=
  match pollWaitForKey s with
  | (none, t) => jumpTo t.pc .none t
  | (some k, t) => advance .none (writeReg x (keyByte k) t)

/-- `Fx15` (R155). -/
def execLdDT (x : Nibble) (s : State) : Result := advance .none { s with dt := readReg s x }

/-- `Fx18` (R156): the event is the edge of the write. -/
def execLdST (x : Nibble) (s : State) : Result :=
  advance (beepEvent s.st (readReg s x)) { s with st := readReg s x }

end Sys2Proof.Machine
end

