-- ==== Sys2Proof/Machine/LoadAlu.lean ====
section
/-! DEFINITION. Register load, arithmetic, logic, shift and random instructions (spec 41_load_alu.md
R100 to R113). Each ends with `pc <- PC + 2` and the event `None`; none can raise a fatal condition. -/

namespace Sys2Proof.Machine

/-- `6xnn` (R101). -/
def execLdImm (x : Nibble) (nn : Byte) (s : State) : Result := advance .none (writeReg x nn s)

/-- `7xnn` (R102): modulo 256, no flag. -/
def execAddImm (x : Nibble) (nn : Byte) (s : State) : Result :=
  advance .none (writeReg x (readReg s x + nn) s)

/-- `8xy0` (R103). -/
def execLdReg (x y : Nibble) (s : State) : Result := advance .none (writeReg x (readReg s y) s)

/-- `8xy1` (R104): no flag. -/
def execOrReg (x y : Nibble) (s : State) : Result :=
  advance .none (writeReg x (readReg s x ||| readReg s y) s)

/-- `8xy2` (R105): no flag. -/
def execAndReg (x y : Nibble) (s : State) : Result :=
  advance .none (writeReg x (readReg s x &&& readReg s y) s)

/-- `8xy3` (R106): no flag. -/
def execXorReg (x y : Nibble) (s : State) : Result :=
  advance .none (writeReg x (readReg s x ^^^ readReg s y) s)

/-- `8xy4` (R107). -/
def execAddReg (x y : Nibble) (s : State) : Result :=
  let a := readReg s x
  let b := readReg s y
  advance .none (writeRegThenFlag x (a + b) (carryFlag a b) s)

/-- `8xy5` (R108). -/
def execSubReg (x y : Nibble) (s : State) : Result :=
  let a := readReg s x
  let b := readReg s y
  advance .none (writeRegThenFlag x (a - b) (notBorrowFlag a b) s)

/-- `8xy7` (R110): the destination is still `Vx`. -/
def execSubn (x y : Nibble) (s : State) : Result :=
  let a := readReg s x
  let b := readReg s y
  advance .none (writeRegThenFlag x (b - a) (notBorrowFlag b a) s)

/-- `8xy6` (R109): `Vx` is shifted; the `y` field is ignored. -/
def execShr (x _y : Nibble) (s : State) : Result :=
  advance .none (writeFlagThenShift x shiftRightFlag (fun a => a >>> 1) s)

/-- `8xyE` (R111): `Vx` is shifted; the `y` field is ignored. -/
def execShl (x _y : Nibble) (s : State) : Result :=
  advance .none (writeFlagThenShift x shiftLeftFlag (fun a => a <<< 1) s)

/-- `Cxnn` (R112): one fresh draw, a free value (log 2), under the mask `nn`. -/
def execRnd (x : Nibble) (nn : Byte) (s : State) : Result :=
  advance .none (consumeDraw (writeReg x (Config.draw s.drawCount &&& nn) s))

end Sys2Proof.Machine
end

