-- ==== Sys2Proof/Machine/HostInterface.lean ====
section
/-! DEFINITION. The operations of the block (spec 60_exceptions.md R180): `Step` as fetch, decode and
execute (R181), `Tick` (R182), `StepWithDecay` (R183), `SetPressed` (R192), `ReadVideo` (R198), `Reset`
(R199), `LoadProgram` (R200), and which of them is performed next. -/

namespace Sys2Proof.Machine

/-- The state with what an operation gave back. -/
def withOutput (o : Output) (s : State) : State := { s with output := o }

/-- `Step()` (R181): a halted core does nothing and outputs `None` (R185); else fetch, decode and execute
one instruction, the first fatal condition in that order being the one raised (R176). -/
def coreStep (s : State) : Result :=
  match s.status with
  | .fatal _ => .next (withOutput (.event .none) s)
  | .running =>
    match fetch s with
    | .error a => raiseFatal (.outOfBounds .mem a) s
    | .ok op =>
      match decode op with
      | .error _ => raiseFatal (.unimplementedOpcode op) s
      | .ok i => exec i s

/-- The event of a `Tick()`: `StopBeep` at the falling edge of the sound timer; `None` otherwise and on a
halted core (R182, R185, R189). -/
def tickEvent (s : State) : Event :=
  match s.status with
  | .fatal _ => .none
  | .running => beepEvent s.st (countDown s.st)

/-- `Tick()` (R182): both timers count down; a halted core changes nothing (R185). -/
def tick (s : State) : State :=
  match s.status with
  | .fatal _ => withOutput (.event (tickEvent s)) s
  | .running => withOutput (.event (tickEvent s)) (decayTimers s)

/-- `k` `Tick`s: the last event other than `None` that one of them emitted (`d` if none did), and the state
after them (R183; at most one of them emits). -/
def decayTicks (d : Event) : Nat → State → Event × State
  | 0, s => (d, s)
  | k + 1, s =>
    let e := tickEvent s
    decayTicks (if e = .none then d else e) k (tick s)

/-- `StepWithDecay(k)` (R183): `Step`, then `k` `Tick`s; the event of the instruction if it is not `None`,
else the decay's, so that a `StopBeep` of the decay can be dropped (70_reset_and_hazards.md R222). After a
fatal `Step` there is no decay. -/
def stepWithDecay (k : Nat) (s : State) : Result :=
  match coreStep s with
  | .next t =>
    match t.status with
    | .fatal _ => .next t
    | .running =>
      let d := decayTicks .none k t
      .next (withOutput (if t.output = .event .none then .event d.1 else t.output) d.2)
  | .fault f => .fault f
  | .refused r => .refused r

/-- `SetPressed(k, p)` (R192): no effect on a halted core (R185); `k > 15` is outside the interface and
refused (decision D27). -/
def setPressed (k : Nat) (p : Bool) (s : State) : Result :=
  if k < Config.keyCount then
    match s.status with
    | .fatal _ => .next (withOutput .nothing s)
    | .running => .next (withOutput .nothing (recordKey (BitVec.ofNat 4 k) p s))
  else .refused (.keyOutsideInterface k)

/-- "a state that `Reset` produced and that no `Step` or `Tick` has changed since" (R200, decision D29):
everything but the latch's keys and last press, which `SetPressed` may have written, is as `Reset`
leaves it (log 7). -/
def justReset (s : State) : Bool :=
  decide ({ resetFrom s with
            keys := s.keys, lastPress := s.lastPress, output := s.output } = s)

/-- The length test of `LoadProgram` (R175, R200). -/
def loadResult (bytes : List Byte) : LoadResult :=
  if romWellFormed bytes then .ok else .loadError bytes.length

/-- `LoadProgram(bytes)` (R200): an oversize image is reported and changes nothing (R175); on a halted
core nothing changes and the result is by length alone (R185); on a running core it is admitted directly
after `Reset` and refused elsewhere (decision D29, log 7). -/
def loadProgram (bytes : List Byte) (s : State) : Result :=
  match s.status with
  | .fatal _ => .next (withOutput (.load (loadResult bytes)) s)
  | .running =>
    if justReset s then
      match loadResult bytes with
      | .ok =>
        .next (withOutput (.load .ok)
          { s with
            mem := s.mem.writeBytes Config.progBase bytes
            pc := BitVec.ofNat 16 Config.progBase })
      | .loadError n => .next (withOutput (.load (.loadError n)) s)
    else .refused .loadNotAfterReset

/-- One operation, performed atomically (R180, R184). -/
def perform : Operation → State → Result
  | .reset, s => .next (resetFrom s)
  | .loadProgram bytes, s => loadProgram bytes s
  | .step, s => coreStep s
  | .tick, s => .next (tick s)
  | .stepWithDecay k, s => stepWithDecay k s
  | .setPressed k p, s => setPressed k p s
  | .readVideo, s => .next (withOutput (.video s.video) s)
  | .readStatus, s => .next (withOutput (.status s.status) s)

/-- The state whose environment performs `ops` next. -/
def withSchedule (ops : List Operation) (s : State) : State := { s with schedule := ops }

/-- The state whose environment goes on as `e` after its schedule. -/
def withEnvironment (e : Environment) (s : State) : State := { s with environment := e }

/-- The next operation, performed: the head of the schedule; when that is empty, `Step` or the next free
operation, as the environment is (R184, log 4). -/
def nextOperation (s : State) : Result :=
  match s.schedule with
  | op :: rest => perform op (withSchedule rest s)
  | [] =>
    match s.environment with
    | .onlySteps => perform .step s
    | .free n => perform (Config.operation n) (withEnvironment (.free (n + 1)) s)

end Sys2Proof.Machine
end

