-- ==== Sys2Proof/Machine/Step.lean ====
section
/-! DEFINITION. One transition of the machine: the next operation of its environment, performed whole
(spec 60_exceptions.md R180, R184). -/

namespace Sys2Proof.Machine

/-- One operation: the head of `schedule`, or what the environment performs when it is empty (log 4). -/
def step (s : State) : Host.Outcome State Fault Refusal := nextOperation s

/-- `s` with a table word where `step` fetches its next instruction (log 4). -/
def State.withFetchWord (s : State) (nbits w : Nat) : State := placeWord nbits w s

end Sys2Proof.Machine
end

