-- ==== Sys2Proof/Safety.lean ====
section
/-! DEFINITION. What counts as a safe run, in the terms claims use: a running core, a finished program
(spec 70_reset_and_hazards.md R214), the host's and the program's duties (60_exceptions.md R201,
70_reset_and_hazards.md R224), and the invariants the spec states of the whole machine (10_state.md R15,
60_exceptions.md R197, and the canonical form of memory, log 3). -/

namespace Sys2Proof.Machine

/-- The core is running: no fatal condition was raised since the last `Reset` (R22). -/
abbrev State.Running (s : State) : Prop := s.status = .running

/-- The core is halted by a fatal condition (R185). -/
abbrev State.Halted (s : State) : Prop := ∃ f, s.status = .fatal f

/-- The program has finished, by the convention of R214 (decision D30): the core is running and the word
at `PC` is a jump to `PC` itself. -/
abbrev State.Finished (s : State) : Prop :=
  s.Running ∧ fetch s = .ok (fetchWord s) ∧ (fetchWord s).toNat = 0x1000 + s.pc.toNat

/-- The duty of a program from `s` to `t`: nothing below `0x200` was written (R224). -/
abbrev LowMemoryKept (s t : State) : Prop :=
  ∀ a, a < Config.progBase → t.mem.read a = s.mem.read a

/-- Two states that differ at most in the output of the last operation: "change no state" (R185). -/
abbrev SameButOutput (s t : State) : Prop := t = { s with output := t.output }

/-- `PC <= 4350`, and every return address is at most 4096 (R15). -/
abbrev State.PcBounded (s : State) : Prop :=
  s.pc.toNat ≤ 4350 ∧ ∀ t ∈ s.stack, t.toNat ≤ 4096

/-- The word at `PC` lies in memory and is some `Fx0A`. -/
def State.atKeyWait (s : State) : Bool :=
  match fetch s with
  | .error _ => false
  | .ok op =>
    match decode op with
    | .ok (.ldVxK _) => true
    | _ => false

/-- The invariant of the key wait (R197): while a wait is armed and the core is running, the instruction
at `PC` is an `Fx0A`. -/
abbrev State.WaitHeld (s : State) : Prop :=
  s.awaiting = true → s.Running → s.atKeyWait = true

/-- The invariant of the machine: memory in canonical form, `PC` bounded, key wait held. -/
structure State.Inv (s : State) : Prop where
  /-- Log 3. -/
  memWf : s.mem.wf = true
  /-- R15. -/
  pcBounded : s.PcBounded
  /-- R197. -/
  waitHeld : s.WaitHeld

/-! ### The vocabulary of the statements -/

/-- The environment of `s` performs `op` next, and `s'` is `s` with that choice taken (60_exceptions.md
R184, log 4): `op` heads the schedule; or the schedule is empty and `op` is the `Step` of an environment of
`Step`s alone, or the next operation of a free one. -/
abbrev ComesNext (op : Operation) (s s' : State) : Prop :=
  (∃ rest, s.schedule = op :: rest ∧ s' = { s with schedule := rest }) ∨
  (s.schedule = [] ∧ s.environment = .onlySteps ∧ op = .step ∧ s' = s) ∨
  (∃ n, s.schedule = [] ∧ s.environment = .free n ∧ op = Config.operation n ∧
    s' = { s with environment := .free (n + 1) })

/-- The operations `ops` performed one after the other, up to the first refusal (R184). -/
def performAll : List Operation → State → Result
  | [], s => .next s
  | op :: ops, s =>
    match perform op s with
    | .next t => performAll ops t
    | .fault f => .fault f
    | .refused r => .refused r

/-- The words `op` with `(op & mask) == pattern` are the instruction `build op` (30_encoding.md R64). -/
abbrev Encodes (mask pattern : Word) (build : Word → Instr) : Prop :=
  ∀ op : Word, op &&& mask = pattern → decode op = .ok (build op)

/-- From `s` to `t` nothing changed but general registers, `PC` and the output. -/
abbrev OnlyRegs (s t : State) : Prop := t = { s with v := t.v, pc := t.pc, output := t.output }

/-- From `s` to `t` nothing changed but main memory, `PC` and the output. -/
abbrev OnlyMem (s t : State) : Prop := t = { s with mem := t.mem, pc := t.pc, output := t.output }

/-- From `s` to `t` nothing changed but registers, video memory, `PC` and the output. -/
abbrev OnlyRegsVideo (s t : State) : Prop :=
  t = { s with v := t.v, video := t.video, pc := t.pc, output := t.output }

/-- The default end of an instruction: `pc <- PC + 2` and the event `None` (10_state.md R14). -/
abbrev AdvancesQuietly (s t : State) : Prop := t.pc = s.pc + 2 ∧ t.output = .event .none

/-- The general registers outside `dest` keep their values. -/
abbrev RegsKeptExcept (dest : Nibble → Prop) (s t : State) : Prop :=
  ∀ z, ¬ dest z → readReg t z = readReg s z

/-- What taking the fatal condition `f` in the state `s` must give: `STATUS` records it, the output is
`None`, nothing else changes (60_exceptions.md R171). -/
abbrev TakesFatal (f : FatalCondition) (s : State) (r : Result) : Prop :=
  r = .next { s with status := .fatal f, output := .event .none }

/-- A 1 bit of the `n`-row sprite at `I`, drawn at column `x0` and row `y0`, falls on the cell `k`: the
formula of 43_display.md R142, `k = 64*(y0 + r) + x0 + c`, bit 7 leftmost. -/
abbrev SpriteCovers (s : State) (x0 y0 n k : Nat) : Prop :=
  ∃ r c, r < n ∧ c < 8 ∧ k = 64 * (y0 + r) + x0 + c ∧
    (s.mem.read (s.i.toNat + r)).getLsbD (7 - c) = true

/-- The draw of `n` rows at column `x0` and row `y0` raises no fatal condition (R142). -/
abbrev DrawFits (s : State) (x0 y0 n : Nat) : Prop :=
  n = 0 ∨ (s.i.toNat + n - 1 ≤ 4095 ∧ 64 * (y0 + n - 1) + x0 + 7 ≤ 2047)

end Sys2Proof.Machine

namespace Sys2Proof

/-- The general registers an instruction may write, by its rule (10_state.md R12, R26): the destination
`Vx`, `VF` for a flag writer, `V0` to `Vx` for `Fx65`. -/
def Instr.writesReg : Instr → Nibble → Bool
  | .ldImm x _, z | .addImm x _, z | .ldReg x _, z | .orReg x _, z | .andReg x _, z | .xorReg x _, z
  | .rnd x _, z | .ldVxDT x, z | .ldVxK x, z => z == x
  | .addReg x _, z | .subReg x _, z | .subn x _, z | .shr x _, z | .shl x _, z => z == x || z == 15
  | .drw _ _ _, z => z == 15
  | .loadRegs x, z => z ≤ x
  | .cls, _ | .ret, _ | .jp _, _ | .call _, _ | .seImm _ _, _ | .sneImm _ _, _ | .seReg _ _, _
  | .sneReg _ _, _ | .ldI _, _ | .jpV0 _, _ | .skp _, _ | .sknp _, _ | .ldDT _, _ | .ldST _, _
  | .addI _, _ | .ldF _, _ | .ldB _, _ | .storeRegs _, _ => false

end Sys2Proof
end

