-- ==== Sys2Proof/Certificates/Slice0/Obligations.lean ====
section
/-! DEFINITION. The statements about this model, from the numbered rules of spec/. Each docstring names the
rule it formalises; where a statement rests on a decision or inference the spec marks as its own, or on a
choice of the model, the docstring says so. `BitVec` sums and differences are modulo 256 or 65536. -/

open Sys2Proof Sys2Proof.Machine

/-! ### Encoding -/

/-- R64, R65, R61 (sections 1 to 3 of 30_encoding.md): every instruction, with every value of every
field, decodes from its own word. -/
def Obligations.DecodeOfEncode : Prop :=
  ∀ i : Instr, decode (encode i) = .ok i

/-- The other direction: a word that decodes is the word of the instruction it decodes to, so no bit of
an implemented word is dropped. -/
def Obligations.EncodeOfDecode : Prop :=
  ∀ (op : Word) (i : Instr), decode op = .ok i → encode i = op

/-- Exactly the words of R66, R67 and R68 are `Unimplemented`; each is rejected by its own value. -/
def Obligations.UnimplementedWordsExactly : Prop :=
  ∀ op : Word, decode op = .error (.unimplemented op) ↔
    let n3 := op.toNat / 4096
    let n0 := op.toNat % 16
    let low := op.toNat % 256
    (n3 = 0 ∧ op ≠ 0x00E0 ∧ op ≠ 0x00EE) ∨
    ((n3 = 5 ∨ n3 = 9) ∧ n0 ≠ 0) ∨
    (n3 = 8 ∧ (n0 = 8 ∨ n0 = 9 ∨ n0 = 10 ∨ n0 = 11 ∨ n0 = 12 ∨ n0 = 13 ∨ n0 = 15)) ∨
    (n3 = 14 ∧ low ≠ 0x9E ∧ low ≠ 0xA1) ∨
    (n3 = 15 ∧ low ≠ 0x07 ∧ low ≠ 0x0A ∧ low ≠ 0x15 ∧ low ≠ 0x18 ∧ low ≠ 0x1E ∧ low ≠ 0x29 ∧
      low ≠ 0x33 ∧ low ≠ 0x55 ∧ low ≠ 0x65)

/-- Words of 95_test_vectors.md, one or more for each family, decode as written there. -/
def Obligations.SpecWordsDecode : Prop :=
  decode 0x00EE = .ok .ret ∧ decode 0x2300 = .ok (.call 0x300) ∧
  decode 0x332A = .ok (.seImm 3 0x2A) ∧ decode 0x8125 = .ok (.subReg 1 2) ∧
  decode 0x8F0E = .ok (.shl 15 0) ∧ decode 0xC30F = .ok (.rnd 3 0x0F) ∧
  decode 0xF255 = .ok (.storeRegs 2) ∧ decode 0xD012 = .ok (.drw 0 1 2) ∧
  decode 0xE59E = .ok (.skp 5) ∧ decode 0xF30A = .ok (.ldVxK 3)

/-! ### The step -/

/-- R181 with R44 (sections 3 of 60_exceptions.md and 2 of 20_memory.md): on a running core whose next
operation is `Step`, whether a schedule or its environment names it (log 4), the step is the execution of
the instruction whose word, high byte first, stands at `PC`. -/
def Obligations.StepRunsDecodedInstruction : Prop :=
  ∀ (s s' : State) (op : Word) (i : Instr),
    s.Running → ComesNext .step s s' → s.pc.toNat + 1 ≤ 4095 →
    op.toNat = (s.mem.read s.pc.toNat).toNat * 256 + (s.mem.read (s.pc.toNat + 1)).toNat →
    decode op = .ok i →
    step s = exec i s'

/-- R181, R171, R46: a fetch at `PC >= 4095` raises `OutOfBounds (Mem, max(PC, 4096))`, whatever the bytes
are (the check comes before decode, R176; the spec's decisions D3, D4, D28), whether a schedule or its
environment names the `Step` (log 4: an empty schedule of an environment of `Step`s means `Step`). -/
def Obligations.FetchOutsideMemoryIsFatal : Prop :=
  ∀ s s' : State, s.Running → ComesNext .step s s' → s.pc.toNat + 1 > 4095 →
    TakesFatal (.outOfBounds .mem (max s.pc.toNat 4096)) s' (step s)

/-- R172, R64: a word at `PC` that is no instruction raises `UnimplementedOpcode` with the word; `PC` is not
advanced past it (precise by the spec's decision D3), whether a schedule or its environment names the
`Step` (log 4: an empty schedule of an environment of `Step`s means `Step`). -/
def Obligations.UnimplementedWordIsFatal : Prop :=
  ∀ (s s' : State) (op : Word), s.Running → ComesNext .step s s' → s.pc.toNat + 1 ≤ 4095 →
    op.toNat = (s.mem.read s.pc.toNat).toNat * 256 + (s.mem.read (s.pc.toNat + 1)).toNat →
    (∀ i, decode op ≠ .ok i) →
    TakesFatal (.unimplementedOpcode op) s' (step s)

/-- R185 (decision D22): on a halted core every operation but `Reset` that the host may call changes no
state; `Step`, `Tick` and `StepWithDecay` output `None`; `LoadProgram` answers by length alone (log 7). -/
def Obligations.HaltedCoreChangesNothing : Prop :=
  ∀ (s : State) (op : Operation), s.Halted → op ≠ .reset →
    (∀ k p, op = .setPressed k p → k < 16) →
    ∃ t, perform op s = .next t ∧ SameButOutput s t ∧
      ((op = .step ∨ op = .tick ∨ ∃ k, op = .stepWithDecay k) → t.output = .event .none) ∧
      (∀ bytes, op = .loadProgram bytes →
        t.output = .load (if bytes.length ≤ 3584 then .ok else .loadError bytes.length))

/-- R171: a fatal condition is precise. Whatever instruction a running core executes, if `STATUS` is no
longer `Running` after it then nothing but `STATUS` and the output changed, and the output is `None`
(decision D3). -/
def Obligations.FatalConditionsArePrecise : Prop :=
  ∀ (i : Instr) (s t : State), s.Running → exec i s = .next t → ¬ t.Running →
    t = { s with status := t.status, output := .event .none }

/-- R170 to R174, R177: every instruction answers a next state in every state; no instruction ends in a
fault or a refusal (a fatal condition is a next state). -/
def Obligations.EveryInstructionAnswersNext : Prop :=
  ∀ (i : Instr) (s : State), ∃ t, exec i s = .next t

/-- R174, with R173: the complete list of what raises a fatal condition, instruction by instruction
(the spec's decisions D4, D5, D6). -/
def Obligations.FatalExactlyWhenListed : Prop :=
  ∀ (i : Instr) (s t : State), s.Running → exec i s = .next t →
    (¬ t.Running ↔
      match i with
      | .ret => s.stack = []
      | .drw x y n => 1 ≤ n.toNat ∧
          (s.i.toNat + n.toNat - 1 > 4095 ∨
           64 * ((readReg s y).toNat % 32 + n.toNat - 1) + (readReg s x).toNat % 64 + 7 > 2047)
      | .ldB _ => s.i.toNat + 2 > 4095
      | .storeRegs x | .loadRegs x => s.i.toNat + x.toNat > 4095
      | .skp x | .sknp x => (readReg s x).toNat > 15
      | _ => False)

/-! ### Control flow -/

/-- R81: `00EE` with a non-empty stack: `PC` is the popped value, not advanced and not checked. -/
def Obligations.RetPopsReturnAddress : Prop :=
  Encodes 0xFFFF 0x00EE (fun _ => .ret) ∧
  ∀ (s : State) (a : Word) (rest : List Word), s.stack = a :: rest →
    exec .ret s = .next { s with pc := a, stack := rest, output := .event .none }

/-- R173, R81: `00EE` with an empty stack raises `StackUnderflow` and changes nothing else (what raising
leaves is the spec's decision D3). -/
def Obligations.RetOnEmptyStackIsFatal : Prop :=
  ∀ s : State, s.stack = [] → TakesFatal .stackUnderflow s (exec .ret s)

/-- R82: `1nnn`. -/
def Obligations.JumpSetsPc : Prop :=
  Encodes 0xF000 0x1000 (fun op => .jp (op.extractLsb' 0 12)) ∧
  ∀ (nnn : Addr12) (s : State), ∃ t, exec (.jp nnn) s = .next t ∧
    t.pc.toNat = nnn.toNat ∧ t = { s with pc := t.pc, output := .event .none }

/-- R83: `2nnn` pushes `PC + 2` and jumps; there is no depth limit. A call followed immediately by `00EE`
returns to exactly the instruction after the call, every other piece of state being as it was. -/
def Obligations.CallPushesAndJumps : Prop :=
  Encodes 0xF000 0x2000 (fun op => .call (op.extractLsb' 0 12)) ∧
  ∀ (nnn : Addr12) (s : State), ∃ t, exec (.call nnn) s = .next t ∧
    t.pc.toNat = nnn.toNat ∧
    t = { s with pc := t.pc, stack := (s.pc + 2) :: s.stack, output := .event .none } ∧
    exec .ret t = .next { s with pc := s.pc + 2, output := .event .none }

/-- R88: `Bnnn`: `V0 + nnn`, not masked, at most 0x10FE. -/
def Obligations.JumpOffsetAddsV0 : Prop :=
  Encodes 0xF000 0xB000 (fun op => .jpV0 (op.extractLsb' 0 12)) ∧
  ∀ (nnn : Addr12) (s : State), ∃ t, exec (.jpV0 nnn) s = .next t ∧
    t.pc.toNat = (readReg s 0).toNat + nnn.toNat ∧
    t = { s with pc := t.pc, output := .event .none }

/-- R84, R85: `3xnn` and `4xnn`. -/
def Obligations.SkipsOnImmediate : Prop :=
  Encodes 0xF000 0x3000 (fun op => .seImm (op.extractLsb' 8 4) (op.extractLsb' 0 8)) ∧
  Encodes 0xF000 0x4000 (fun op => .sneImm (op.extractLsb' 8 4) (op.extractLsb' 0 8)) ∧
  ∀ (x : Nibble) (nn : Byte) (s : State),
    exec (.seImm x nn) s = .next
      { s with pc := if readReg s x = nn then s.pc + 4 else s.pc + 2, output := .event .none } ∧
    exec (.sneImm x nn) s = .next
      { s with pc := if readReg s x ≠ nn then s.pc + 4 else s.pc + 2, output := .event .none }

/-- R86, R87: `5xy0` and `9xy0`. -/
def Obligations.SkipsOnRegister : Prop :=
  Encodes 0xF00F 0x5000 (fun op => .seReg (op.extractLsb' 8 4) (op.extractLsb' 4 4)) ∧
  Encodes 0xF00F 0x9000 (fun op => .sneReg (op.extractLsb' 8 4) (op.extractLsb' 4 4)) ∧
  ∀ (x y : Nibble) (s : State),
    exec (.seReg x y) s = .next
      { s with pc := if readReg s x = readReg s y then s.pc + 4 else s.pc + 2
               output := .event .none } ∧
    exec (.sneReg x y) s = .next
      { s with pc := if readReg s x ≠ readReg s y then s.pc + 4 else s.pc + 2
               output := .event .none }

/-! ### Register load, arithmetic, logic, shift, random -/

/-- R101: `6xnn`. -/
def Obligations.LoadImmediate : Prop :=
  Encodes 0xF000 0x6000 (fun op => .ldImm (op.extractLsb' 8 4) (op.extractLsb' 0 8)) ∧
  ∀ (x : Nibble) (nn : Byte) (s : State), ∃ t, exec (.ldImm x nn) s = .next t ∧
    readReg t x = nn ∧ RegsKeptExcept (· = x) s t ∧ AdvancesQuietly s t ∧ OnlyRegs s t

/-- R102: `7xnn`: modulo 256 and no flag, also when the sum exceeds 255. -/
def Obligations.AddImmediateWraps : Prop :=
  Encodes 0xF000 0x7000 (fun op => .addImm (op.extractLsb' 8 4) (op.extractLsb' 0 8)) ∧
  ∀ (x : Nibble) (nn : Byte) (s : State), ∃ t, exec (.addImm x nn) s = .next t ∧
    (readReg t x).toNat = ((readReg s x).toNat + nn.toNat) % 256 ∧
    RegsKeptExcept (· = x) s t ∧ AdvancesQuietly s t ∧ OnlyRegs s t

/-- R103: `8xy0`. -/
def Obligations.LoadRegister : Prop :=
  Encodes 0xF00F 0x8000 (fun op => .ldReg (op.extractLsb' 8 4) (op.extractLsb' 4 4)) ∧
  ∀ (x y : Nibble) (s : State), ∃ t, exec (.ldReg x y) s = .next t ∧
    readReg t x = readReg s y ∧ RegsKeptExcept (· = x) s t ∧ AdvancesQuietly s t ∧ OnlyRegs s t

/-- R104 to R106 (section 3 of 41_load_alu.md): bit by bit; `VF` is not written unless `x = F` (the spec
derives that these set no flag). -/
def Obligations.LogicBitwiseWithoutFlag : Prop :=
  Encodes 0xF00F 0x8001 (fun op => .orReg (op.extractLsb' 8 4) (op.extractLsb' 4 4)) ∧
  Encodes 0xF00F 0x8002 (fun op => .andReg (op.extractLsb' 8 4) (op.extractLsb' 4 4)) ∧
  Encodes 0xF00F 0x8003 (fun op => .xorReg (op.extractLsb' 8 4) (op.extractLsb' 4 4)) ∧
  ∀ (x y : Nibble) (s : State),
    (∃ t, exec (.orReg x y) s = .next t ∧
      (∀ b < 8, (readReg t x).getLsbD b = ((readReg s x).getLsbD b || (readReg s y).getLsbD b)) ∧
      RegsKeptExcept (· = x) s t ∧ AdvancesQuietly s t ∧ OnlyRegs s t) ∧
    (∃ t, exec (.andReg x y) s = .next t ∧
      (∀ b < 8, (readReg t x).getLsbD b = ((readReg s x).getLsbD b && (readReg s y).getLsbD b)) ∧
      RegsKeptExcept (· = x) s t ∧ AdvancesQuietly s t ∧ OnlyRegs s t) ∧
    (∃ t, exec (.xorReg x y) s = .next t ∧
      (∀ b < 8, (readReg t x).getLsbD b = ((readReg s x).getLsbD b ^^ (readReg s y).getLsbD b)) ∧
      RegsKeptExcept (· = x) s t ∧ AdvancesQuietly s t ∧ OnlyRegs s t)

/-- R107 (section 4 of 41_load_alu.md): sum modulo 256, then `VF` = carry, last, also when `x = F` (the
spec's decision D7). -/
def Obligations.AddRegistersWithCarry : Prop :=
  Encodes 0xF00F 0x8004 (fun op => .addReg (op.extractLsb' 8 4) (op.extractLsb' 4 4)) ∧
  ∀ (x y : Nibble) (s : State), ∃ t, exec (.addReg x y) s = .next t ∧
    readReg t 15 = (if (readReg s x).toNat + (readReg s y).toNat > 255 then 1 else 0) ∧
    (x ≠ 15 → (readReg t x).toNat = ((readReg s x).toNat + (readReg s y).toNat) % 256) ∧
    RegsKeptExcept (fun z => z = x ∨ z = 15) s t ∧ AdvancesQuietly s t ∧ OnlyRegs s t

/-- R108, R110 (section 4): differences modulo 256, `VF` = not-borrow, last (the spec's decision D7; that
equal operands give 1 is the spec's inference from "not-borrow"). -/
def Obligations.SubtractRegistersWithNotBorrow : Prop :=
  Encodes 0xF00F 0x8005 (fun op => .subReg (op.extractLsb' 8 4) (op.extractLsb' 4 4)) ∧
  Encodes 0xF00F 0x8007 (fun op => .subn (op.extractLsb' 8 4) (op.extractLsb' 4 4)) ∧
  ∀ (x y : Nibble) (s : State),
    (∃ t, exec (.subReg x y) s = .next t ∧
      readReg t 15 = (if (readReg s x).toNat ≥ (readReg s y).toNat then 1 else 0) ∧
      (x ≠ 15 → (readReg t x).toNat = ((readReg s x).toNat + 256 - (readReg s y).toNat) % 256) ∧
      RegsKeptExcept (fun z => z = x ∨ z = 15) s t ∧ AdvancesQuietly s t ∧ OnlyRegs s t) ∧
    (∃ t, exec (.subn x y) s = .next t ∧
      readReg t 15 = (if (readReg s y).toNat ≥ (readReg s x).toNat then 1 else 0) ∧
      (x ≠ 15 → (readReg t x).toNat = ((readReg s y).toNat + 256 - (readReg s x).toNat) % 256) ∧
      RegsKeptExcept (fun z => z = x ∨ z = 15) s t ∧ AdvancesQuietly s t ∧ OnlyRegs s t)

/-- R109 (section 5): `VF` = bit 0 of `Vx`, then `Vx` halved; `Vy` is neither read nor written; with
`x = F` the result is 0 (the spec's decision D8). -/
def Obligations.ShiftRight : Prop :=
  Encodes 0xF00F 0x8006 (fun op => .shr (op.extractLsb' 8 4) (op.extractLsb' 4 4)) ∧
  ∀ (x y : Nibble) (s : State), ∃ t, exec (.shr x y) s = .next t ∧
    (x ≠ 15 → (readReg t 15).toNat = (readReg s x).toNat % 2 ∧
      (readReg t x).toNat = (readReg s x).toNat / 2) ∧
    (x = 15 → readReg t 15 = 0) ∧
    RegsKeptExcept (fun z => z = x ∨ z = 15) s t ∧ AdvancesQuietly s t ∧ OnlyRegs s t

/-- R111 (section 5): `VF` = 0x80 or 0x00, not normalised, then `Vx` doubled modulo 256; with `x = F` the
result is 0 (the spec's decision D8). -/
def Obligations.ShiftLeft : Prop :=
  Encodes 0xF00F 0x800E (fun op => .shl (op.extractLsb' 8 4) (op.extractLsb' 4 4)) ∧
  ∀ (x y : Nibble) (s : State), ∃ t, exec (.shl x y) s = .next t ∧
    (x ≠ 15 → readReg t 15 = (if (readReg s x).toNat ≥ 128 then 0x80 else 0x00) ∧
      (readReg t x).toNat = 2 * (readReg s x).toNat % 256) ∧
    (x = 15 → readReg t 15 = 0) ∧
    RegsKeptExcept (fun z => z = x ∨ z = 15) s t ∧ AdvancesQuietly s t ∧ OnlyRegs s t

/-- R112 (section 6): `Vx` is the next draw under the mask; one draw is consumed. The draw is a free value
(the spec's decision D13, log 2): the statement holds for every value it may have. -/
def Obligations.RandomUnderMask : Prop :=
  Encodes 0xF000 0xC000 (fun op => .rnd (op.extractLsb' 8 4) (op.extractLsb' 0 8)) ∧
  ∀ (x : Nibble) (nn : Byte) (s : State), ∃ t, exec (.rnd x nn) s = .next t ∧
    readReg t x = Config.draw s.drawCount &&& nn ∧ readReg t x &&& ~~~nn = 0 ∧
    t.drawCount = s.drawCount + 1 ∧
    RegsKeptExcept (· = x) s t ∧ AdvancesQuietly s t ∧
    OnlyRegs { s with drawCount := s.drawCount + 1 } t

/-! ### Index register and memory -/

/-- R121, R122, R123: `Annn`, `Fx1E` (modulo 65536, no flag) and `Fx29` (the whole of `Vx`). -/
def Obligations.IndexRegisterWrites : Prop :=
  Encodes 0xF000 0xA000 (fun op => .ldI (op.extractLsb' 0 12)) ∧
  Encodes 0xF0FF 0xF01E (fun op => .addI (op.extractLsb' 8 4)) ∧
  Encodes 0xF0FF 0xF029 (fun op => .ldF (op.extractLsb' 8 4)) ∧
  (∀ (nnn : Addr12) (s : State), ∃ t, exec (.ldI nnn) s = .next t ∧ t.i.toNat = nnn.toNat ∧
    t = { s with i := t.i, pc := s.pc + 2, output := .event .none }) ∧
  ∀ (x : Nibble) (s : State),
    (∃ t, exec (.addI x) s = .next t ∧ t.i.toNat = (s.i.toNat + (readReg s x).toNat) % 65536 ∧
      t = { s with i := t.i, pc := s.pc + 2, output := .event .none }) ∧
    (∃ t, exec (.ldF x) s = .next t ∧ t.i.toNat = 5 * (readReg s x).toNat ∧
      t = { s with i := t.i, pc := s.pc + 2, output := .event .none })

/-- R124 (section 3 of 42_index_memory.md): `Fx33` on a range inside memory stores hundreds, tens and
ones, leaves every other byte, and leaves `I` (derived in the spec, R120). -/
def Obligations.StoreDecimalDigits : Prop :=
  Encodes 0xF0FF 0xF033 (fun op => .ldB (op.extractLsb' 8 4)) ∧
  ∀ (x : Nibble) (s : State), s.mem.wf = true → s.i.toNat + 2 ≤ 4095 →
    ∃ t, exec (.ldB x) s = .next t ∧
      (t.mem.read s.i.toNat).toNat = (readReg s x).toNat / 100 ∧
      (t.mem.read (s.i.toNat + 1)).toNat = (readReg s x).toNat / 10 % 10 ∧
      (t.mem.read (s.i.toNat + 2)).toNat = (readReg s x).toNat % 10 ∧
      (∀ a, a < s.i.toNat ∨ s.i.toNat + 3 ≤ a → t.mem.read a = s.mem.read a) ∧
      AdvancesQuietly s t ∧ OnlyMem s t

/-- R125 (section 3): `Fx55` on a range inside memory stores `V0` to `Vx` (inclusive), leaves every other
byte, and leaves `I`. -/
def Obligations.StoreRegisters : Prop :=
  Encodes 0xF0FF 0xF055 (fun op => .storeRegs (op.extractLsb' 8 4)) ∧
  ∀ (x : Nibble) (s : State), s.mem.wf = true → s.i.toNat + x.toNat ≤ 4095 →
    ∃ t, exec (.storeRegs x) s = .next t ∧
      (∀ z : Nibble, z.toNat ≤ x.toNat → t.mem.read (s.i.toNat + z.toNat) = readReg s z) ∧
      (∀ a, a < s.i.toNat ∨ s.i.toNat + x.toNat + 1 ≤ a → t.mem.read a = s.mem.read a) ∧
      AdvancesQuietly s t ∧ OnlyMem s t

/-- R126 (section 4): `Fx65` on a range inside memory loads `V0` to `Vx` (inclusive); registers above `Vx`
keep their values. -/
def Obligations.LoadRegisters : Prop :=
  Encodes 0xF0FF 0xF065 (fun op => .loadRegs (op.extractLsb' 8 4)) ∧
  ∀ (x : Nibble) (s : State), s.i.toNat + x.toNat ≤ 4095 →
    ∃ t, exec (.loadRegs x) s = .next t ∧
      (∀ z : Nibble, z.toNat ≤ x.toNat → readReg t z = s.mem.read (s.i.toNat + z.toNat)) ∧
      RegsKeptExcept (fun z => z.toNat ≤ x.toNat) s t ∧ AdvancesQuietly s t ∧ OnlyRegs s t

/-- R46, R120 with R124 to R126: a range that leaves memory raises `OutOfBounds (Mem, max(I, 4096))` and no
byte or register changes (the spec's decisions D3, D4). -/
def Obligations.DataAccessOutsideMemoryIsFatal : Prop :=
  ∀ (x : Nibble) (s : State),
    (s.i.toNat + 2 > 4095 → TakesFatal (.outOfBounds .mem (max s.i.toNat 4096)) s (exec (.ldB x) s)) ∧
    (s.i.toNat + x.toNat > 4095 →
      TakesFatal (.outOfBounds .mem (max s.i.toNat 4096)) s (exec (.storeRegs x) s) ∧
      TakesFatal (.outOfBounds .mem (max s.i.toNat 4096)) s (exec (.loadRegs x) s))

/-- R125 with R126: `Fx55`, then `Fx65` with the same `x` and `I`, whatever happened to the registers in
between, restores `V0` to `Vx` and leaves the others. -/
def Obligations.StoreThenLoadRestores : Prop :=
  ∀ (x : Nibble) (s : State) (w : Vector Byte 16), s.mem.wf = true → s.i.toNat + x.toNat ≤ 4095 →
    ∃ t u, exec (.storeRegs x) s = .next t ∧ exec (.loadRegs x) { t with v := w } = .next u ∧
      (∀ z : Nibble, z.toNat ≤ x.toNat → readReg u z = readReg s z) ∧
      (∀ z : Nibble, x.toNat < z.toNat → readReg u z = readReg { t with v := w } z)

/-! ### Display -/

/-- R141 (section 2 of 43_display.md): `00E0` turns every cell off; no flag, event `None` (the spec's
decision D11). -/
def Obligations.ClearScreen : Prop :=
  Encodes 0xFFFF 0x00E0 (fun _ => .cls) ∧
  ∀ s : State, ∃ t, exec .cls s = .next t ∧ (∀ k < 2048, t.video.cell k = false) ∧
    AdvancesQuietly s t ∧ t = { s with video := t.video, pc := t.pc, output := t.output }

/-- R142 (section 3): a draw that fits flips exactly the covered cells by the linear index (spilling into
the next row), `VF` says whether a cell went from on to off, the event is `DisplayUpdated`, also for
`n = 0` (coordinates before `VF`: the spec's decision D9). -/
def Obligations.DrawSprite : Prop :=
  Encodes 0xF000 0xD000
    (fun op => .drw (op.extractLsb' 8 4) (op.extractLsb' 4 4) (op.extractLsb' 0 4)) ∧
  ∀ (x y n : Nibble) (s : State),
    let x0 := (readReg s x).toNat % 64
    let y0 := (readReg s y).toNat % 32
    DrawFits s x0 y0 n.toNat →
    ∃ t, exec (.drw x y n) s = .next t ∧
      (∀ k < 2048, SpriteCovers s x0 y0 n.toNat k → t.video.cell k = !s.video.cell k) ∧
      (∀ k < 2048, ¬ SpriteCovers s x0 y0 n.toNat k → t.video.cell k = s.video.cell k) ∧
      ((∃ k < 2048, s.video.cell k = true ∧ t.video.cell k = false) → readReg t 15 = 1) ∧
      ((¬ ∃ k < 2048, s.video.cell k = true ∧ t.video.cell k = false) → readReg t 15 = 0) ∧
      RegsKeptExcept (· = 15) s t ∧ t.pc = s.pc + 2 ∧ t.output = .event .displayUpdated ∧
      OnlyRegsVideo s t

/-- R142, R53: the two checks of a draw, memory before video, both before any write (the spec's decisions
D3, D4, D5). -/
def Obligations.DrawOutsideIsFatal : Prop :=
  ∀ (x y n : Nibble) (s : State),
    let x0 := (readReg s x).toNat % 64
    let y0 := (readReg s y).toNat % 32
    let kmax := 64 * (y0 + n.toNat - 1) + x0 + 7
    1 ≤ n.toNat →
    (s.i.toNat + n.toNat - 1 > 4095 →
      TakesFatal (.outOfBounds .mem (max s.i.toNat 4096)) s (exec (.drw x y n) s)) ∧
    (s.i.toNat + n.toNat - 1 ≤ 4095 → kmax > 2047 →
      TakesFatal (.outOfBounds .video kmax) s (exec (.drw x y n) s))

/-- The source's collision property (95_test_vectors.md T6): drawing the same sprite twice at the same
coordinates restores video memory; without a prior collision `VF` is 0 after the first draw and, if the
sprite has a 1 bit (derived in the spec), 1 after the second. -/
def Obligations.DrawTwiceRestores : Prop :=
  ∀ (x y n : Nibble) (s : State),
    let x0 := (readReg s x).toNat % 64
    let y0 := (readReg s y).toNat % 32
    x ≠ 15 → y ≠ 15 → DrawFits s x0 y0 n.toNat →
    ∃ t u, exec (.drw x y n) s = .next t ∧ exec (.drw x y n) t = .next u ∧
      (∀ k < 2048, u.video.cell k = s.video.cell k) ∧
      ((∀ k < 2048, SpriteCovers s x0 y0 n.toNat k → s.video.cell k = false) →
        readReg t 15 = 0 ∧ ((∃ k, SpriteCovers s x0 y0 n.toNat k) → readReg u 15 = 1))

/-! ### Keys and timers -/

/-- R151, R152 (section 2 of 44_keys_timers.md): the skips on a key in 0..15. -/
def Obligations.SkipsOnKey : Prop :=
  Encodes 0xF0FF 0xE09E (fun op => .skp (op.extractLsb' 8 4)) ∧
  Encodes 0xF0FF 0xE0A1 (fun op => .sknp (op.extractLsb' 8 4)) ∧
  ∀ (x : Nibble) (s : State) (h : (readReg s x).toNat < 16),
    exec (.skp x) s = .next
      { s with pc := if s.keys[(readReg s x).toNat] then s.pc + 4 else s.pc + 2
               output := .event .none } ∧
    exec (.sknp x) s = .next
      { s with pc := if s.keys[(readReg s x).toNat] then s.pc + 2 else s.pc + 4
               output := .event .none }

/-- R151, R152: a key index above 15 raises `OutOfBounds (Key, Vx)`; it is not masked (the spec's
decisions D3, D6). -/
def Obligations.KeyIndexAboveFifteenIsFatal : Prop :=
  ∀ (x : Nibble) (s : State), (readReg s x).toNat > 15 →
    TakesFatal (.outOfBounds .key (readReg s x).toNat) s (exec (.skp x) s) ∧
    TakesFatal (.outOfBounds .key (readReg s x).toNat) s (exec (.sknp x) s)

/-- R153, R155: `Fx07` reads and `Fx15` writes the delay timer. -/
def Obligations.DelayTimerAccess : Prop :=
  Encodes 0xF0FF 0xF007 (fun op => .ldVxDT (op.extractLsb' 8 4)) ∧
  Encodes 0xF0FF 0xF015 (fun op => .ldDT (op.extractLsb' 8 4)) ∧
  ∀ (x : Nibble) (s : State),
    (∃ t, exec (.ldVxDT x) s = .next t ∧ readReg t x = s.dt ∧ RegsKeptExcept (· = x) s t ∧
      AdvancesQuietly s t ∧ OnlyRegs s t) ∧
    exec (.ldDT x) s = .next { s with dt := readReg s x, pc := s.pc + 2, output := .event .none }

/-- R156 (section 4 of 44_keys_timers.md): `Fx18` writes the sound timer and emits the edge (the spec's
decision D10). -/
def Obligations.SoundTimerWrite : Prop :=
  Encodes 0xF0FF 0xF018 (fun op => .ldST (op.extractLsb' 8 4)) ∧
  ∀ (x : Nibble) (s : State),
    exec (.ldST x) s = .next
      { s with
        st := readReg s x, pc := s.pc + 2
        output := .event
          (if s.st.toNat = 0 ∧ (readReg s x).toNat > 0 then .startBeep
           else if s.st.toNat > 0 ∧ (readReg s x).toNat = 0 then .stopBeep else .none) }

/-- R154 with R196, where `Fx0A` waits: its first poll arms the wait and forgets earlier presses; an
armed poll without a press changes nothing; `PC` stays. -/
def Obligations.KeyWaitHoldsPc : Prop :=
  Encodes 0xF0FF 0xF00A (fun op => .ldVxK (op.extractLsb' 8 4)) ∧
  ∀ (x : Nibble) (s : State),
    (s.awaiting = false →
      exec (.ldVxK x) s = .next
        { s with awaiting := true, lastPress := none, output := .event .none }) ∧
    (s.awaiting = true → s.lastPress = none →
      exec (.ldVxK x) s = .next { s with output := .event .none })

/-- R154 with R196, where `Fx0A` completes: armed, with a captured key, `Vx` receives it, the latch is
disarmed and `last_press` left as it is (the spec's decision D31). -/
def Obligations.KeyWaitDeliversKey : Prop :=
  ∀ (x k : Nibble) (s : State), s.awaiting = true → s.lastPress = some k →
    ∃ t, exec (.ldVxK x) s = .next t ∧ (readReg t x).toNat = k.toNat ∧
      RegsKeptExcept (· = x) s t ∧ AdvancesQuietly s t ∧ OnlyRegs { s with awaiting := false } t

/-- The source's key-wait protocol (R154, R221, 95_test_vectors.md T8): from a latch that is not waiting, the
first `Fx0A` completes nothing, and after one press `SetPressed(k, true)` the next one delivers `k`. -/
def Obligations.KeyWaitProtocol : Prop :=
  ∀ (x : Nibble) (k : Nat) (s : State), s.Running → s.awaiting = false → k < 16 →
    ∃ t u w, exec (.ldVxK x) s = .next t ∧ t.pc = s.pc ∧ t.lastPress = none ∧
      perform (.setPressed k true) t = .next u ∧ u.pc = s.pc ∧
      exec (.ldVxK x) u = .next w ∧ (readReg w x).toNat = k ∧ w.pc = s.pc + 2 ∧
      w.awaiting = false

/-! ### The operations of the host and of the timers -/

/-- R182 (section 3 of 60_exceptions.md): one `Tick`, at the head of the schedule, which is the model's own
field and loses that head (log 4). On a running core both timers count down, clamped at zero, and the
event is `StopBeep` if `ST` reaches zero by it, else `None`. A halted core changes nothing else and outputs
`None` (the spec's decision D22). -/
def Obligations.TickDecaysTimers : Prop :=
  ∀ (s : State) (rest : List Operation), s.schedule = .tick :: rest →
    (s.Running → ∃ t, step s = .next t ∧
      t.dt.toNat = s.dt.toNat - 1 ∧ t.st.toNat = s.st.toNat - 1 ∧
      t.output = .event (if s.st.toNat = 1 then .stopBeep else .none) ∧
      t = { s with dt := t.dt, st := t.st, schedule := rest, output := t.output }) ∧
    (s.Halted → step s = .next { s with schedule := rest, output := .event .none })

/-- R182, R186, R187 over any number of `Tick`s (95_test_vectors.md T10): both timers count down, clamped at
zero, and the one `StopBeep` comes at the `Tick` that takes `ST` to zero. -/
def Obligations.TicksCountDown : Prop :=
  ∀ (n : Nat) (s : State), s.Running →
    (tick^[n] s).dt.toNat = s.dt.toNat - n ∧ (tick^[n] s).st.toNat = s.st.toNat - n ∧
    (tickEvent (tick^[n] s) = .stopBeep ↔ s.st.toNat = n + 1) ∧
    (tickEvent (tick^[n] s) = .none ↔ s.st.toNat ≠ n + 1)

/-- R183 (section 3 of 60_exceptions.md), R222: after a `Step` that leaves the core running, `StepWithDecay(k)`
has the state effect of `Step` and `k` `Tick`s and returns the instruction's event, or the decay's only if
that was `None`; after one that does not (a fatal `Step`, or a halted core) there is no decay (the spec's
decision D2). -/
def Obligations.StepWithDecayIsStepThenTicks : Prop :=
  ∀ (k : Nat) (s t : State), coreStep s = .next t →
    (t.Running → ∃ u, perform (.stepWithDecay k) s = .next u ∧
      SameButOutput (tick^[k] t) u ∧
      u.output = (if t.output ≠ .event .none then t.output
        else .event (if 0 < t.st.toNat ∧ t.st.toNat ≤ k then .stopBeep else .none))) ∧
    (¬ t.Running → perform (.stepWithDecay k) s = .next t)

/-- R192, R185: `SetPressed(k, p)` on a running core; a key above 15 is outside the interface and refused on
every core (the spec's decision D27, log 7). -/
def Obligations.SetPressedRecordsKey : Prop :=
  ∀ (k : Nat) (p : Bool) (s : State),
    (∀ h : k < 16, s.Running →
      ∃ t, perform (.setPressed k p) s = .next t ∧ t.keys[k] = p ∧
        (∀ j (hj : j < 16), j ≠ k → t.keys[j] = s.keys[j]) ∧
        t.lastPress = (if p then some (BitVec.ofNat 4 k) else s.lastPress) ∧
        t = { s with keys := t.keys, lastPress := t.lastPress, output := .nothing }) ∧
    (k > 15 → perform (.setPressed k p) s = .refused (.keyOutsideInterface k))

/-- R200, R212: `LoadProgram` directly after `Reset` copies an image that fits to `0x200` and sets `PC`;
everything else keeps its value. An oversize image is reported and changes nothing (R175, the spec's
decision D21). On a running core it is refused elsewhere, by the spec's decision D29 as the model reads it
(log 7). -/
def Obligations.LoadProgramAfterReset : Prop :=
  ∀ (bytes : List Byte) (s : State), s.Running →
    (justReset s = true → bytes.length ≤ 3584 →
      ∃ t, perform (.loadProgram bytes) s = .next t ∧ t.pc = 0x200 ∧ t.output = .load .ok ∧
        (∀ k (h : k < bytes.length), t.mem.read (0x200 + k) = bytes[k]) ∧
        (∀ a, a < 0x200 ∨ 0x200 + bytes.length ≤ a → t.mem.read a = s.mem.read a) ∧
        OnlyMem s t) ∧
    (justReset s = true → bytes.length > 3584 →
      perform (.loadProgram bytes) s = .next { s with output := .load (.loadError bytes.length) }) ∧
    (justReset s = false → perform (.loadProgram bytes) s = .refused .loadNotAfterReset)

/-- R199 with the table of R23 (the spec's decisions D3, D15, D26): `Reset` from any state, halted or
not, with this machine's own font; and `State.reset` is such a state. -/
def Obligations.ResetLeavesResetValues : Prop :=
  (∀ s : State, ∃ t, perform .reset s = .next t ∧
    (∀ x, readReg t x = 0) ∧ t.pc = 0 ∧ t.i = 0 ∧ t.dt = 0 ∧ t.st = 0 ∧ t.stack = [] ∧
    (∀ a (h : a < 80), t.mem.read a = s.font[a]) ∧ (∀ a, 80 ≤ a → t.mem.read a = 0) ∧
    (∀ k < 2048, t.video.cell k = false) ∧ (∀ k (h : k < 16), t.keys[k] = false) ∧
    t.awaiting = false ∧ t.lastPress = none ∧ t.Running ∧ t.output = .nothing ∧
    t.font = s.font) ∧
  perform .reset State.reset = .next State.reset

/-- R198, R143 (section 7 of 60_exceptions.md): `ReadVideo` shows the host the 2048 cells as bytes 0 or 1,
row-major, and reading `STATUS` shows it `STATUS` (R180; R22 of 10_state.md); neither changes anything, on
a running or a halted core. -/
def Obligations.HostReadsShowVideoAndStatus : Prop :=
  ∀ s : State,
    (∃ t, perform .readVideo s = .next t ∧ t.output = .video s.video ∧ SameButOutput s t ∧
      (displayView s.video).length = 2048 ∧
      ∀ c r, c < 64 → r < 32 → (displayView s.video)[64 * r + c]? =
        some (if s.video.cell (64 * r + c) then 1 else 0)) ∧
    perform .readStatus s = .next { s with output := .status s.status }

/-! ### Whole-machine rules -/

/-- The access matrix of R26, instruction side (section 11 of 10_state.md): no instruction changes a piece
of state the matrix does not let it write. -/
def Obligations.InstructionsWriteOnlyTheirState : Prop :=
  ∀ (i : Instr) (s t : State), exec i s = .next t →
    (∀ z, i.writesReg z = false → readReg t z = readReg s z) ∧
    ((∀ a, i ≠ .ldI a) → (∀ x, i ≠ .addI x) → (∀ x, i ≠ .ldF x) → t.i = s.i) ∧
    ((∀ x, i ≠ .ldDT x) → t.dt = s.dt) ∧
    ((∀ x, i ≠ .ldST x) → t.st = s.st) ∧
    ((∀ a, i ≠ .call a) → i ≠ .ret → t.stack = s.stack) ∧
    ((∀ x, i ≠ .ldB x) → (∀ x, i ≠ .storeRegs x) → t.mem = s.mem) ∧
    (i ≠ .cls → (∀ x y n, i ≠ .drw x y n) → t.video = s.video) ∧
    t.keys = s.keys ∧
    ((∀ x, i ≠ .ldVxK x) → t.awaiting = s.awaiting ∧ t.lastPress = s.lastPress) ∧
    t.font = s.font ∧ t.schedule = s.schedule ∧ t.environment = s.environment ∧
    ((∀ x nn, i ≠ .rnd x nn) → t.drawCount = s.drawCount)

/-- The event table of R189 (section 5 of 60_exceptions.md), instruction side, on a running core. -/
def Obligations.EventOfEveryInstruction : Prop :=
  ∀ (i : Instr) (s t : State), s.Running → exec i s = .next t →
    (¬ t.Running → t.output = .event .none) ∧
    (t.Running → t.output = .event
      (match i with
       | .drw _ _ _ => .displayUpdated
       | .ldST x =>
         if s.st.toNat = 0 ∧ (readReg s x).toNat > 0 then .startBeep
         else if s.st.toNat > 0 ∧ (readReg s x).toNat = 0 then .stopBeep else .none
       | _ => .none))

/-- R187 (section 4 of 60_exceptions.md): over any instruction and any `Tick` of a running core, `StartBeep`
is exactly the edge of `ST` from zero and `StopBeep` exactly the edge to zero (decision D10). -/
def Obligations.BeepEventsAreTheEdges : Prop :=
  (∀ (i : Instr) (s t : State), exec i s = .next t →
    (t.output = .event .startBeep ↔ s.st = 0 ∧ t.st ≠ 0) ∧
    (t.output = .event .stopBeep ↔ s.st ≠ 0 ∧ t.st = 0)) ∧
  (∀ s : State, s.Running →
    ((tick s).output = .event .startBeep ↔ s.st = 0 ∧ (tick s).st ≠ 0) ∧
    ((tick s).output = .event .stopBeep ↔ s.st ≠ 0 ∧ (tick s).st = 0))

/-- R214 (decision D30), R82: in a finished program every `Step` leaves all state unchanged, whether a
schedule or its environment names it (log 4: an empty schedule of an environment of `Step`s means
`Step`). -/
def Obligations.FinishedProgramStaysFinished : Prop :=
  ∀ s s' : State, s.Finished → ComesNext .step s s' → step s = .next { s' with output := .event .none }

/-- The invariant of the machine: memory in canonical form (the model's, log 3), `PC <= 4350` with return
addresses at most 4096 (derived in R15), and the key wait of R197 (derived there). Every operation of the
environment and every instruction keeps it, from every state that has it. -/
def Obligations.StepKeepsMachineInvariant : Prop :=
  ∀ s t : State, s.Inv → step s = .next t → t.Inv

/-- The invariant holds after reset. -/
def Obligations.ResetHasMachineInvariant : Prop :=
  State.reset.Inv

/-- R180, R184: whatever operation comes next, the step answers a next state but for the two calls of the
host that the spec refuses: a key above 15 (decision D27), and `LoadProgram` on a running core elsewhere
than directly after `Reset` (decision D29); logs 4, 7, 8. -/
def Obligations.EveryAllowedOperationAnswersNext : Prop :=
  ∀ (op : Operation) (s s' : State), ComesNext op s s' →
    (∀ k p, op = .setPressed k p → 15 < k → step s = .refused (.keyOutsideInterface k)) ∧
    (∀ bytes, op = .loadProgram bytes → s'.Running → justReset s' = false →
      step s = .refused .loadNotAfterReset) ∧
    ((∀ k p, op = .setPressed k p → k < 16) →
      (∀ bytes, op = .loadProgram bytes → s'.Halted ∨ justReset s' = true) →
      ∃ t, step s = .next t)

/-- The model's own way to place an instruction (log 4): from any state with canonical memory, the very
next step after `withFetchWord` runs the instruction the decoder reads from the table word. -/
def Obligations.PlacedWordIsNextInstruction : Prop :=
  ∀ (s : State) (nbits w : Nat) (i : Instr), s.mem.wf = true → decodeTableWord nbits w = some i →
    step (s.withFetchWord nbits w) = exec i (s.withFetchWord nbits w)

/-- R184 (section 3 of 60_exceptions.md), in the model's own form (log 4): in every state some operation comes
next and the step performs it; a schedule of operations is performed in its order; and a free environment
performs its free values one after the other, without end and under no law, so that every infinite
sequence of operations is a run. -/
def Obligations.EveryOrderOfOperationsIsARun : Prop :=
  (∀ s : State, ∃ op s', ComesNext op s s' ∧ step s = perform op s') ∧
  (∀ (ops : List Operation) (s t : State), s.schedule = [] → performAll ops s = .next t →
    core.run ops.length { s with schedule := ops } = .next t) ∧
  (∀ (n k : Nat) (s t : State), s.schedule = [] → s.environment = .free n →
    performAll ((List.range' n k).map Config.operation) s = .next t →
    core.run k s = .next { t with environment := .free (n + k) })
end

