-- ==== Sys2Proof/Laws/Decode.lean ====
section
/-! SUPPORT. The opcode map is disjoint (spec 30_encoding.md R64), so a word that selects a row decodes by
that row. -/

namespace Sys2Proof

/-- Two rows that some word could select both: their patterns agree on every bit of both masks. -/
def OpcodeRow.overlaps (r q : OpcodeRow) : Bool :=
  (r.pattern ^^^ q.pattern) &&& (r.mask &&& q.mask) == 0

/-- There are 34 rows (R65). -/
theorem opcodeRows_length : opcodeRows.length = 34 := by decide

/-- The rows are disjoint (R64). -/
theorem opcodeRows_disjoint : opcodeRows.Pairwise (fun r q => r.overlaps q = false) := by decide

theorem OpcodeRow.overlaps_of_selects {r q : OpcodeRow} {op : Word} (h : r.selects op = true)
    (h' : q.selects op = true) : r.overlaps q = true := by
  simp only [OpcodeRow.selects, beq_iff_eq] at h h'
  simp only [OpcodeRow.overlaps, beq_iff_eq, ← h, ← h']
  ext i
  simp
  grind

/-- A word that selects a row decodes by that row (R64). -/
theorem decode_of_selects {r : OpcodeRow} {op : Word} (hr : r ∈ opcodeRows)
    (h : r.selects op = true) : decode op = .ok (r.build op) := by
  have key : ∀ rows : List OpcodeRow, rows.Pairwise (fun r q => r.overlaps q = false) → r ∈ rows →
      rows.find? (fun q => q.selects op) = some r := by
    intro rows hp hm
    induction rows with
    | nil => cases hm
    | cons q rows ih =>
      rw [List.pairwise_cons] at hp
      rcases List.mem_cons.mp hm with rfl | hm
      · simp [h]
      · by_cases hq : q.selects op = true
        · have := hp.1 r hm
          rw [OpcodeRow.overlaps_of_selects hq h] at this
          cases this
        · simpa [List.find?_cons, hq] using ih hp.2 hm
  simp [decode, key opcodeRows opcodeRows_disjoint hr]

/-- What decoding can answer: the instruction of a row the word selects, or the word rejected by name
because it selects none. -/
theorem decode_cases (op : Word) :
    (∃ r ∈ opcodeRows, r.selects op = true ∧ decode op = .ok (r.build op)) ∨
    ((∀ r ∈ opcodeRows, r.selects op = false) ∧ decode op = .error (.unimplemented op)) := by
  by_cases h : ∃ r ∈ opcodeRows, r.selects op = true
  · obtain ⟨r, hr, hs⟩ := h
    exact .inl ⟨r, hr, hs, decode_of_selects hr hs⟩
  · have hn : ∀ r ∈ opcodeRows, r.selects op = false := by
      intro r hr
      by_contra hc
      exact h ⟨r, hr, by simpa using hc⟩
    refine .inr ⟨hn, ?_⟩
    have : opcodeRows.find? (fun r => r.selects op) = none := by
      simpa [List.find?_eq_none] using hn
    simp [decode, this]

end Sys2Proof
end

