-- ==== Sys2Proof/Laws/State.lean ====
section
/-! SUPPORT. The small lemmas of the state's updates: for each named update, what every field of State is
after it. A later proof uses these and never unfolds a record update. -/

namespace Sys2Proof.Machine

variable (s : State)

/-! `V[x] <- b` writes the register file alone (10_state.md R11). -/

@[simp] theorem writeReg_v (x : Nibble) (b : Byte) : (writeReg x b s).v = s.v.set x.toNat b x.isLt := rfl
@[simp] theorem writeReg_pc (x : Nibble) (b : Byte) : (writeReg x b s).pc = s.pc := rfl
@[simp] theorem writeReg_i (x : Nibble) (b : Byte) : (writeReg x b s).i = s.i := rfl
@[simp] theorem writeReg_dt (x : Nibble) (b : Byte) : (writeReg x b s).dt = s.dt := rfl
@[simp] theorem writeReg_st (x : Nibble) (b : Byte) : (writeReg x b s).st = s.st := rfl
@[simp] theorem writeReg_stack (x : Nibble) (b : Byte) : (writeReg x b s).stack = s.stack := rfl
@[simp] theorem writeReg_mem (x : Nibble) (b : Byte) : (writeReg x b s).mem = s.mem := rfl
@[simp] theorem writeReg_video (x : Nibble) (b : Byte) : (writeReg x b s).video = s.video := rfl
@[simp] theorem writeReg_keys (x : Nibble) (b : Byte) : (writeReg x b s).keys = s.keys := rfl
@[simp] theorem writeReg_awaiting (x : Nibble) (b : Byte) : (writeReg x b s).awaiting = s.awaiting := rfl
@[simp] theorem writeReg_lastPress (x : Nibble) (b : Byte) : (writeReg x b s).lastPress = s.lastPress := rfl
@[simp] theorem writeReg_status (x : Nibble) (b : Byte) : (writeReg x b s).status = s.status := rfl
@[simp] theorem writeReg_font (x : Nibble) (b : Byte) : (writeReg x b s).font = s.font := rfl
@[simp] theorem writeReg_drawCount (x : Nibble) (b : Byte) : (writeReg x b s).drawCount = s.drawCount := rfl
@[simp] theorem writeReg_schedule (x : Nibble) (b : Byte) : (writeReg x b s).schedule = s.schedule := rfl
@[simp] theorem writeReg_environment (x : Nibble) (b : Byte) : (writeReg x b s).environment = s.environment := rfl
@[simp] theorem writeReg_output (x : Nibble) (b : Byte) : (writeReg x b s).output = s.output := rfl

/-! The end of an instruction writes `PC` and the output alone (10_state.md R14). -/

@[simp] theorem finish_v (p : Word) (e : Event) : (finish p e s).v = s.v := rfl
@[simp] theorem finish_pc (p : Word) (e : Event) : (finish p e s).pc = p := rfl
@[simp] theorem finish_i (p : Word) (e : Event) : (finish p e s).i = s.i := rfl
@[simp] theorem finish_dt (p : Word) (e : Event) : (finish p e s).dt = s.dt := rfl
@[simp] theorem finish_st (p : Word) (e : Event) : (finish p e s).st = s.st := rfl
@[simp] theorem finish_stack (p : Word) (e : Event) : (finish p e s).stack = s.stack := rfl
@[simp] theorem finish_mem (p : Word) (e : Event) : (finish p e s).mem = s.mem := rfl
@[simp] theorem finish_video (p : Word) (e : Event) : (finish p e s).video = s.video := rfl
@[simp] theorem finish_keys (p : Word) (e : Event) : (finish p e s).keys = s.keys := rfl
@[simp] theorem finish_awaiting (p : Word) (e : Event) : (finish p e s).awaiting = s.awaiting := rfl
@[simp] theorem finish_lastPress (p : Word) (e : Event) : (finish p e s).lastPress = s.lastPress := rfl
@[simp] theorem finish_status (p : Word) (e : Event) : (finish p e s).status = s.status := rfl
@[simp] theorem finish_font (p : Word) (e : Event) : (finish p e s).font = s.font := rfl
@[simp] theorem finish_drawCount (p : Word) (e : Event) : (finish p e s).drawCount = s.drawCount := rfl
@[simp] theorem finish_schedule (p : Word) (e : Event) : (finish p e s).schedule = s.schedule := rfl
@[simp] theorem finish_environment (p : Word) (e : Event) : (finish p e s).environment = s.environment := rfl
@[simp] theorem finish_output (p : Word) (e : Event) : (finish p e s).output = .event e := rfl

/-! A fatal condition writes `STATUS` and the output alone (60_exceptions.md R171). -/

@[simp] theorem withFatal_v (f : FatalCondition) : (withFatal f s).v = s.v := rfl
@[simp] theorem withFatal_pc (f : FatalCondition) : (withFatal f s).pc = s.pc := rfl
@[simp] theorem withFatal_i (f : FatalCondition) : (withFatal f s).i = s.i := rfl
@[simp] theorem withFatal_dt (f : FatalCondition) : (withFatal f s).dt = s.dt := rfl
@[simp] theorem withFatal_st (f : FatalCondition) : (withFatal f s).st = s.st := rfl
@[simp] theorem withFatal_stack (f : FatalCondition) : (withFatal f s).stack = s.stack := rfl
@[simp] theorem withFatal_mem (f : FatalCondition) : (withFatal f s).mem = s.mem := rfl
@[simp] theorem withFatal_video (f : FatalCondition) : (withFatal f s).video = s.video := rfl
@[simp] theorem withFatal_keys (f : FatalCondition) : (withFatal f s).keys = s.keys := rfl
@[simp] theorem withFatal_awaiting (f : FatalCondition) : (withFatal f s).awaiting = s.awaiting := rfl
@[simp] theorem withFatal_lastPress (f : FatalCondition) : (withFatal f s).lastPress = s.lastPress := rfl
@[simp] theorem withFatal_status (f : FatalCondition) : (withFatal f s).status = .fatal f := rfl
@[simp] theorem withFatal_font (f : FatalCondition) : (withFatal f s).font = s.font := rfl
@[simp] theorem withFatal_drawCount (f : FatalCondition) : (withFatal f s).drawCount = s.drawCount := rfl
@[simp] theorem withFatal_schedule (f : FatalCondition) : (withFatal f s).schedule = s.schedule := rfl
@[simp] theorem withFatal_environment (f : FatalCondition) : (withFatal f s).environment = s.environment := rfl
@[simp] theorem withFatal_output (f : FatalCondition) : (withFatal f s).output = .event .none := rfl

/-! Giving back an output changes nothing else. -/

@[simp] theorem withOutput_v (o : Output) : (withOutput o s).v = s.v := rfl
@[simp] theorem withOutput_pc (o : Output) : (withOutput o s).pc = s.pc := rfl
@[simp] theorem withOutput_i (o : Output) : (withOutput o s).i = s.i := rfl
@[simp] theorem withOutput_dt (o : Output) : (withOutput o s).dt = s.dt := rfl
@[simp] theorem withOutput_st (o : Output) : (withOutput o s).st = s.st := rfl
@[simp] theorem withOutput_stack (o : Output) : (withOutput o s).stack = s.stack := rfl
@[simp] theorem withOutput_mem (o : Output) : (withOutput o s).mem = s.mem := rfl
@[simp] theorem withOutput_video (o : Output) : (withOutput o s).video = s.video := rfl
@[simp] theorem withOutput_keys (o : Output) : (withOutput o s).keys = s.keys := rfl
@[simp] theorem withOutput_awaiting (o : Output) : (withOutput o s).awaiting = s.awaiting := rfl
@[simp] theorem withOutput_lastPress (o : Output) : (withOutput o s).lastPress = s.lastPress := rfl
@[simp] theorem withOutput_status (o : Output) : (withOutput o s).status = s.status := rfl
@[simp] theorem withOutput_font (o : Output) : (withOutput o s).font = s.font := rfl
@[simp] theorem withOutput_drawCount (o : Output) : (withOutput o s).drawCount = s.drawCount := rfl
@[simp] theorem withOutput_schedule (o : Output) : (withOutput o s).schedule = s.schedule := rfl
@[simp] theorem withOutput_environment (o : Output) : (withOutput o s).environment = s.environment := rfl
@[simp] theorem withOutput_output (o : Output) : (withOutput o s).output = o := rfl

/-! Taking an operation off the schedule changes nothing else. -/

@[simp] theorem withSchedule_v (ops : List Operation) : (withSchedule ops s).v = s.v := rfl
@[simp] theorem withSchedule_pc (ops : List Operation) : (withSchedule ops s).pc = s.pc := rfl
@[simp] theorem withSchedule_i (ops : List Operation) : (withSchedule ops s).i = s.i := rfl
@[simp] theorem withSchedule_dt (ops : List Operation) : (withSchedule ops s).dt = s.dt := rfl
@[simp] theorem withSchedule_st (ops : List Operation) : (withSchedule ops s).st = s.st := rfl
@[simp] theorem withSchedule_stack (ops : List Operation) : (withSchedule ops s).stack = s.stack := rfl
@[simp] theorem withSchedule_mem (ops : List Operation) : (withSchedule ops s).mem = s.mem := rfl
@[simp] theorem withSchedule_video (ops : List Operation) : (withSchedule ops s).video = s.video := rfl
@[simp] theorem withSchedule_keys (ops : List Operation) : (withSchedule ops s).keys = s.keys := rfl
@[simp] theorem withSchedule_awaiting (ops : List Operation) : (withSchedule ops s).awaiting = s.awaiting := rfl
@[simp] theorem withSchedule_lastPress (ops : List Operation) : (withSchedule ops s).lastPress = s.lastPress := rfl
@[simp] theorem withSchedule_status (ops : List Operation) : (withSchedule ops s).status = s.status := rfl
@[simp] theorem withSchedule_font (ops : List Operation) : (withSchedule ops s).font = s.font := rfl
@[simp] theorem withSchedule_drawCount (ops : List Operation) : (withSchedule ops s).drawCount = s.drawCount := rfl
@[simp] theorem withSchedule_schedule (ops : List Operation) : (withSchedule ops s).schedule = ops := rfl
@[simp] theorem withSchedule_environment (ops : List Operation) : (withSchedule ops s).environment = s.environment := rfl
@[simp] theorem withSchedule_output (ops : List Operation) : (withSchedule ops s).output = s.output := rfl

/-! Setting how the environment goes on changes nothing else. -/

@[simp] theorem withEnvironment_v (e : Environment) : (withEnvironment e s).v = s.v := rfl
@[simp] theorem withEnvironment_pc (e : Environment) : (withEnvironment e s).pc = s.pc := rfl
@[simp] theorem withEnvironment_i (e : Environment) : (withEnvironment e s).i = s.i := rfl
@[simp] theorem withEnvironment_dt (e : Environment) : (withEnvironment e s).dt = s.dt := rfl
@[simp] theorem withEnvironment_st (e : Environment) : (withEnvironment e s).st = s.st := rfl
@[simp] theorem withEnvironment_stack (e : Environment) : (withEnvironment e s).stack = s.stack := rfl
@[simp] theorem withEnvironment_mem (e : Environment) : (withEnvironment e s).mem = s.mem := rfl
@[simp] theorem withEnvironment_video (e : Environment) : (withEnvironment e s).video = s.video := rfl
@[simp] theorem withEnvironment_keys (e : Environment) : (withEnvironment e s).keys = s.keys := rfl
@[simp] theorem withEnvironment_awaiting (e : Environment) : (withEnvironment e s).awaiting = s.awaiting := rfl
@[simp] theorem withEnvironment_lastPress (e : Environment) : (withEnvironment e s).lastPress = s.lastPress := rfl
@[simp] theorem withEnvironment_status (e : Environment) : (withEnvironment e s).status = s.status := rfl
@[simp] theorem withEnvironment_font (e : Environment) : (withEnvironment e s).font = s.font := rfl
@[simp] theorem withEnvironment_drawCount (e : Environment) : (withEnvironment e s).drawCount = s.drawCount := rfl
@[simp] theorem withEnvironment_schedule (e : Environment) : (withEnvironment e s).schedule = s.schedule := rfl
@[simp] theorem withEnvironment_environment (e : Environment) : (withEnvironment e s).environment = e := rfl
@[simp] theorem withEnvironment_output (e : Environment) : (withEnvironment e s).output = s.output := rfl

/-! A draw counts, and changes nothing else (41_load_alu.md R112). -/

@[simp] theorem consumeDraw_v : (consumeDraw s).v = s.v := rfl
@[simp] theorem consumeDraw_pc : (consumeDraw s).pc = s.pc := rfl
@[simp] theorem consumeDraw_i : (consumeDraw s).i = s.i := rfl
@[simp] theorem consumeDraw_dt : (consumeDraw s).dt = s.dt := rfl
@[simp] theorem consumeDraw_st : (consumeDraw s).st = s.st := rfl
@[simp] theorem consumeDraw_stack : (consumeDraw s).stack = s.stack := rfl
@[simp] theorem consumeDraw_mem : (consumeDraw s).mem = s.mem := rfl
@[simp] theorem consumeDraw_video : (consumeDraw s).video = s.video := rfl
@[simp] theorem consumeDraw_keys : (consumeDraw s).keys = s.keys := rfl
@[simp] theorem consumeDraw_awaiting : (consumeDraw s).awaiting = s.awaiting := rfl
@[simp] theorem consumeDraw_lastPress : (consumeDraw s).lastPress = s.lastPress := rfl
@[simp] theorem consumeDraw_status : (consumeDraw s).status = s.status := rfl
@[simp] theorem consumeDraw_font : (consumeDraw s).font = s.font := rfl
@[simp] theorem consumeDraw_drawCount : (consumeDraw s).drawCount = s.drawCount + 1 := rfl
@[simp] theorem consumeDraw_schedule : (consumeDraw s).schedule = s.schedule := rfl
@[simp] theorem consumeDraw_environment : (consumeDraw s).environment = s.environment := rfl
@[simp] theorem consumeDraw_output : (consumeDraw s).output = s.output := rfl

/-! Arming a key wait (60_exceptions.md R196). -/

@[simp] theorem armWait_v : (armWait s).v = s.v := rfl
@[simp] theorem armWait_pc : (armWait s).pc = s.pc := rfl
@[simp] theorem armWait_i : (armWait s).i = s.i := rfl
@[simp] theorem armWait_dt : (armWait s).dt = s.dt := rfl
@[simp] theorem armWait_st : (armWait s).st = s.st := rfl
@[simp] theorem armWait_stack : (armWait s).stack = s.stack := rfl
@[simp] theorem armWait_mem : (armWait s).mem = s.mem := rfl
@[simp] theorem armWait_video : (armWait s).video = s.video := rfl
@[simp] theorem armWait_keys : (armWait s).keys = s.keys := rfl
@[simp] theorem armWait_awaiting : (armWait s).awaiting = true := rfl
@[simp] theorem armWait_lastPress : (armWait s).lastPress = none := rfl
@[simp] theorem armWait_status : (armWait s).status = s.status := rfl
@[simp] theorem armWait_font : (armWait s).font = s.font := rfl
@[simp] theorem armWait_drawCount : (armWait s).drawCount = s.drawCount := rfl
@[simp] theorem armWait_schedule : (armWait s).schedule = s.schedule := rfl
@[simp] theorem armWait_environment : (armWait s).environment = s.environment := rfl
@[simp] theorem armWait_output : (armWait s).output = s.output := rfl

/-! Disarming a key wait leaves `last_press` (R196, decision D31). -/

@[simp] theorem disarmWait_v : (disarmWait s).v = s.v := rfl
@[simp] theorem disarmWait_pc : (disarmWait s).pc = s.pc := rfl
@[simp] theorem disarmWait_i : (disarmWait s).i = s.i := rfl
@[simp] theorem disarmWait_dt : (disarmWait s).dt = s.dt := rfl
@[simp] theorem disarmWait_st : (disarmWait s).st = s.st := rfl
@[simp] theorem disarmWait_stack : (disarmWait s).stack = s.stack := rfl
@[simp] theorem disarmWait_mem : (disarmWait s).mem = s.mem := rfl
@[simp] theorem disarmWait_video : (disarmWait s).video = s.video := rfl
@[simp] theorem disarmWait_keys : (disarmWait s).keys = s.keys := rfl
@[simp] theorem disarmWait_awaiting : (disarmWait s).awaiting = false := rfl
@[simp] theorem disarmWait_lastPress : (disarmWait s).lastPress = s.lastPress := rfl
@[simp] theorem disarmWait_status : (disarmWait s).status = s.status := rfl
@[simp] theorem disarmWait_font : (disarmWait s).font = s.font := rfl
@[simp] theorem disarmWait_drawCount : (disarmWait s).drawCount = s.drawCount := rfl
@[simp] theorem disarmWait_schedule : (disarmWait s).schedule = s.schedule := rfl
@[simp] theorem disarmWait_environment : (disarmWait s).environment = s.environment := rfl
@[simp] theorem disarmWait_output : (disarmWait s).output = s.output := rfl

/-! `SetPressed` writes the latch alone (R192). -/

@[simp] theorem recordKey_v (k : Nibble) (p : Bool) : (recordKey k p s).v = s.v := rfl
@[simp] theorem recordKey_pc (k : Nibble) (p : Bool) : (recordKey k p s).pc = s.pc := rfl
@[simp] theorem recordKey_i (k : Nibble) (p : Bool) : (recordKey k p s).i = s.i := rfl
@[simp] theorem recordKey_dt (k : Nibble) (p : Bool) : (recordKey k p s).dt = s.dt := rfl
@[simp] theorem recordKey_st (k : Nibble) (p : Bool) : (recordKey k p s).st = s.st := rfl
@[simp] theorem recordKey_stack (k : Nibble) (p : Bool) : (recordKey k p s).stack = s.stack := rfl
@[simp] theorem recordKey_mem (k : Nibble) (p : Bool) : (recordKey k p s).mem = s.mem := rfl
@[simp] theorem recordKey_video (k : Nibble) (p : Bool) : (recordKey k p s).video = s.video := rfl
@[simp] theorem recordKey_keys (k : Nibble) (p : Bool) : (recordKey k p s).keys = s.keys.set k.toNat p k.isLt := rfl
@[simp] theorem recordKey_awaiting (k : Nibble) (p : Bool) : (recordKey k p s).awaiting = s.awaiting := rfl
@[simp] theorem recordKey_lastPress (k : Nibble) (p : Bool) : (recordKey k p s).lastPress = if p then some k else s.lastPress := rfl
@[simp] theorem recordKey_status (k : Nibble) (p : Bool) : (recordKey k p s).status = s.status := rfl
@[simp] theorem recordKey_font (k : Nibble) (p : Bool) : (recordKey k p s).font = s.font := rfl
@[simp] theorem recordKey_drawCount (k : Nibble) (p : Bool) : (recordKey k p s).drawCount = s.drawCount := rfl
@[simp] theorem recordKey_schedule (k : Nibble) (p : Bool) : (recordKey k p s).schedule = s.schedule := rfl
@[simp] theorem recordKey_environment (k : Nibble) (p : Bool) : (recordKey k p s).environment = s.environment := rfl
@[simp] theorem recordKey_output (k : Nibble) (p : Bool) : (recordKey k p s).output = s.output := rfl

/-! `Tick` writes the timers alone (R182). -/

@[simp] theorem decayTimers_v : (decayTimers s).v = s.v := rfl
@[simp] theorem decayTimers_pc : (decayTimers s).pc = s.pc := rfl
@[simp] theorem decayTimers_i : (decayTimers s).i = s.i := rfl
@[simp] theorem decayTimers_dt : (decayTimers s).dt = countDown s.dt := rfl
@[simp] theorem decayTimers_st : (decayTimers s).st = countDown s.st := rfl
@[simp] theorem decayTimers_stack : (decayTimers s).stack = s.stack := rfl
@[simp] theorem decayTimers_mem : (decayTimers s).mem = s.mem := rfl
@[simp] theorem decayTimers_video : (decayTimers s).video = s.video := rfl
@[simp] theorem decayTimers_keys : (decayTimers s).keys = s.keys := rfl
@[simp] theorem decayTimers_awaiting : (decayTimers s).awaiting = s.awaiting := rfl
@[simp] theorem decayTimers_lastPress : (decayTimers s).lastPress = s.lastPress := rfl
@[simp] theorem decayTimers_status : (decayTimers s).status = s.status := rfl
@[simp] theorem decayTimers_font : (decayTimers s).font = s.font := rfl
@[simp] theorem decayTimers_drawCount : (decayTimers s).drawCount = s.drawCount := rfl
@[simp] theorem decayTimers_schedule : (decayTimers s).schedule = s.schedule := rfl
@[simp] theorem decayTimers_environment : (decayTimers s).environment = s.environment := rfl
@[simp] theorem decayTimers_output : (decayTimers s).output = s.output := rfl

/-! The two-register writes of the flag writers touch the register file alone (41_load_alu.md R113, R109). -/

@[simp] theorem writeRegThenFlag_pc (x : Nibble) (b flag : Byte) : (writeRegThenFlag x b flag s).pc = s.pc := rfl
@[simp] theorem writeRegThenFlag_i (x : Nibble) (b flag : Byte) : (writeRegThenFlag x b flag s).i = s.i := rfl
@[simp] theorem writeRegThenFlag_dt (x : Nibble) (b flag : Byte) : (writeRegThenFlag x b flag s).dt = s.dt := rfl
@[simp] theorem writeRegThenFlag_st (x : Nibble) (b flag : Byte) : (writeRegThenFlag x b flag s).st = s.st := rfl
@[simp] theorem writeRegThenFlag_stack (x : Nibble) (b flag : Byte) : (writeRegThenFlag x b flag s).stack = s.stack := rfl
@[simp] theorem writeRegThenFlag_mem (x : Nibble) (b flag : Byte) : (writeRegThenFlag x b flag s).mem = s.mem := rfl
@[simp] theorem writeRegThenFlag_video (x : Nibble) (b flag : Byte) : (writeRegThenFlag x b flag s).video = s.video := rfl
@[simp] theorem writeRegThenFlag_keys (x : Nibble) (b flag : Byte) : (writeRegThenFlag x b flag s).keys = s.keys := rfl
@[simp] theorem writeRegThenFlag_awaiting (x : Nibble) (b flag : Byte) : (writeRegThenFlag x b flag s).awaiting = s.awaiting := rfl
@[simp] theorem writeRegThenFlag_lastPress (x : Nibble) (b flag : Byte) : (writeRegThenFlag x b flag s).lastPress = s.lastPress := rfl
@[simp] theorem writeRegThenFlag_status (x : Nibble) (b flag : Byte) : (writeRegThenFlag x b flag s).status = s.status := rfl
@[simp] theorem writeRegThenFlag_font (x : Nibble) (b flag : Byte) : (writeRegThenFlag x b flag s).font = s.font := rfl
@[simp] theorem writeRegThenFlag_drawCount (x : Nibble) (b flag : Byte) : (writeRegThenFlag x b flag s).drawCount = s.drawCount := rfl
@[simp] theorem writeRegThenFlag_schedule (x : Nibble) (b flag : Byte) : (writeRegThenFlag x b flag s).schedule = s.schedule := rfl
@[simp] theorem writeRegThenFlag_environment (x : Nibble) (b flag : Byte) : (writeRegThenFlag x b flag s).environment = s.environment := rfl
@[simp] theorem writeRegThenFlag_output (x : Nibble) (b flag : Byte) : (writeRegThenFlag x b flag s).output = s.output := rfl

@[simp] theorem writeFlagThenShift_pc (x : Nibble) (flag shift : Byte → Byte) : (writeFlagThenShift x flag shift s).pc = s.pc := rfl
@[simp] theorem writeFlagThenShift_i (x : Nibble) (flag shift : Byte → Byte) : (writeFlagThenShift x flag shift s).i = s.i := rfl
@[simp] theorem writeFlagThenShift_dt (x : Nibble) (flag shift : Byte → Byte) : (writeFlagThenShift x flag shift s).dt = s.dt := rfl
@[simp] theorem writeFlagThenShift_st (x : Nibble) (flag shift : Byte → Byte) : (writeFlagThenShift x flag shift s).st = s.st := rfl
@[simp] theorem writeFlagThenShift_stack (x : Nibble) (flag shift : Byte → Byte) : (writeFlagThenShift x flag shift s).stack = s.stack := rfl
@[simp] theorem writeFlagThenShift_mem (x : Nibble) (flag shift : Byte → Byte) : (writeFlagThenShift x flag shift s).mem = s.mem := rfl
@[simp] theorem writeFlagThenShift_video (x : Nibble) (flag shift : Byte → Byte) : (writeFlagThenShift x flag shift s).video = s.video := rfl
@[simp] theorem writeFlagThenShift_keys (x : Nibble) (flag shift : Byte → Byte) : (writeFlagThenShift x flag shift s).keys = s.keys := rfl
@[simp] theorem writeFlagThenShift_awaiting (x : Nibble) (flag shift : Byte → Byte) : (writeFlagThenShift x flag shift s).awaiting = s.awaiting := rfl
@[simp] theorem writeFlagThenShift_lastPress (x : Nibble) (flag shift : Byte → Byte) : (writeFlagThenShift x flag shift s).lastPress = s.lastPress := rfl
@[simp] theorem writeFlagThenShift_status (x : Nibble) (flag shift : Byte → Byte) : (writeFlagThenShift x flag shift s).status = s.status := rfl
@[simp] theorem writeFlagThenShift_font (x : Nibble) (flag shift : Byte → Byte) : (writeFlagThenShift x flag shift s).font = s.font := rfl
@[simp] theorem writeFlagThenShift_drawCount (x : Nibble) (flag shift : Byte → Byte) : (writeFlagThenShift x flag shift s).drawCount = s.drawCount := rfl
@[simp] theorem writeFlagThenShift_schedule (x : Nibble) (flag shift : Byte → Byte) : (writeFlagThenShift x flag shift s).schedule = s.schedule := rfl
@[simp] theorem writeFlagThenShift_environment (x : Nibble) (flag shift : Byte → Byte) : (writeFlagThenShift x flag shift s).environment = s.environment := rfl
@[simp] theorem writeFlagThenShift_output (x : Nibble) (flag shift : Byte → Byte) : (writeFlagThenShift x flag shift s).output = s.output := rfl

/-! ### Reading a register after an update -/

theorem readReg_eq (x : Nibble) : readReg s x = s.v[x.toNat]'x.isLt := rfl

@[simp] theorem readReg_writeReg_same (x : Nibble) (b : Byte) : readReg (writeReg x b s) x = b := by
  simp [readReg]

theorem readReg_writeReg_other {x y : Nibble} (b : Byte) (h : y ≠ x) :
    readReg (writeReg x b s) y = readReg s y := by
  have : x.toNat ≠ y.toNat := fun e => h (BitVec.eq_of_toNat_eq e.symm)
  simp [readReg, Vector.getElem_set_ne _ _ this]

theorem readReg_writeReg (x y : Nibble) (b : Byte) :
    readReg (writeReg x b s) y = if y = x then b else readReg s y := by
  split
  · next h => subst h; simp
  · next h => exact readReg_writeReg_other s b h

@[simp] theorem readReg_finish (p : Word) (e : Event) (y : Nibble) : readReg (finish p e s) y = readReg s y := rfl
@[simp] theorem readReg_withFatal (f : FatalCondition) (y : Nibble) : readReg (withFatal f s) y = readReg s y := rfl
@[simp] theorem readReg_withOutput (o : Output) (y : Nibble) : readReg (withOutput o s) y = readReg s y := rfl
@[simp] theorem readReg_withSchedule (ops : List Operation) (y : Nibble) : readReg (withSchedule ops s) y = readReg s y := rfl
@[simp] theorem readReg_withEnvironment (e : Environment) (y : Nibble) : readReg (withEnvironment e s) y = readReg s y := rfl
@[simp] theorem readReg_consumeDraw (y : Nibble) : readReg (consumeDraw s) y = readReg s y := rfl
@[simp] theorem readReg_armWait (y : Nibble) : readReg (armWait s) y = readReg s y := rfl
@[simp] theorem readReg_disarmWait (y : Nibble) : readReg (disarmWait s) y = readReg s y := rfl
@[simp] theorem readReg_recordKey (k : Nibble) (p : Bool) (y : Nibble) : readReg (recordKey k p s) y = readReg s y := rfl
@[simp] theorem readReg_decayTimers (y : Nibble) : readReg (decayTimers s) y = readReg s y := rfl

/-- Two states with the same registers, by reading, have the same register file. -/
theorem v_ext {s t : State} (h : ∀ x, readReg s x = readReg t x) : s.v = t.v := by
  apply Vector.ext
  intro k hk
  have := h (BitVec.ofNat 4 k)
  simpa [readReg, Nat.mod_eq_of_lt hk] using this

/-- What `Reset` leaves, field by field (10_state.md R23); memory holds this machine's font. -/
theorem resetFrom_eq :
    resetFrom s = { State.reset with
      mem := fontMemory s.font, font := s.font, drawCount := s.drawCount
      schedule := s.schedule, environment := s.environment } := rfl

@[simp] theorem resetFrom_v : (resetFrom s).v = Vector.replicate 16 0 := rfl
@[simp] theorem resetFrom_pc : (resetFrom s).pc = 0 := rfl
@[simp] theorem resetFrom_i : (resetFrom s).i = 0 := rfl
@[simp] theorem resetFrom_dt : (resetFrom s).dt = 0 := rfl
@[simp] theorem resetFrom_st : (resetFrom s).st = 0 := rfl
@[simp] theorem resetFrom_stack : (resetFrom s).stack = [] := rfl
@[simp] theorem resetFrom_mem : (resetFrom s).mem = fontMemory s.font := rfl
@[simp] theorem resetFrom_video : (resetFrom s).video = Vector.replicate 32 0 := rfl
@[simp] theorem resetFrom_keys : (resetFrom s).keys = Vector.replicate 16 false := rfl
@[simp] theorem resetFrom_awaiting : (resetFrom s).awaiting = false := rfl
@[simp] theorem resetFrom_lastPress : (resetFrom s).lastPress = none := rfl
@[simp] theorem resetFrom_status : (resetFrom s).status = .running := rfl
@[simp] theorem resetFrom_font : (resetFrom s).font = s.font := rfl
@[simp] theorem resetFrom_drawCount : (resetFrom s).drawCount = s.drawCount := rfl
@[simp] theorem resetFrom_schedule : (resetFrom s).schedule = s.schedule := rfl
@[simp] theorem resetFrom_environment : (resetFrom s).environment = s.environment := rfl
@[simp] theorem resetFrom_output : (resetFrom s).output = .nothing := rfl

end Sys2Proof.Machine
end

