-- ==== Sys2Proof/Laws/Memory.lean ====
section
/-! SUPPORT. The laws of main memory (spec 20_memory.md R43, R50): a write is read back, leaves every other
address alone and keeps the canonical form; two canonical memories that read alike are equal. -/

namespace Sys2Proof.Machine

/-- A canonical memory that starts above `low` reads as unlisted at `low` and below. -/
theorem Memory.read_of_le {m : Memory} {low a : Nat} (h : Memory.wfFrom (some low) m = true)
    (ha : a ≤ low) : m.read a = Memory.unlisted a := by
  induction m generalizing low with
  | nil => rfl
  | cons c rest ih =>
    obtain ⟨b, y⟩ := c
    simp only [Memory.wfFrom, Option.all_some, Bool.and_eq_true, decide_eq_true_eq] at h
    have hne : b ≠ a := by omega
    simp only [Memory.read, hne, if_false]
    exact ih h.2 (by omega)

/-- The bound on the first address may be dropped or lowered. -/
theorem Memory.wfFrom_weaken {m : Memory} {low low' : Option Nat}
    (h : Memory.wfFrom low m = true) (hl : ∀ b, low.all (· < b) = true → low'.all (· < b) = true) :
    Memory.wfFrom low' m = true := by
  cases m with
  | nil => rfl
  | cons c rest =>
    obtain ⟨b, y⟩ := c
    simp only [Memory.wfFrom, Bool.and_eq_true] at h ⊢
    exact ⟨⟨⟨hl b h.1.1.1, h.1.1.2⟩, h.1.2⟩, h.2⟩

/-- The rest of a canonical memory is canonical. -/
theorem Memory.wf_of_cons {c : Host.Cell} {m : Memory} {low : Option Nat}
    (h : Memory.wfFrom low (c :: m) = true) : Memory.wf m = true := by
  simp only [Memory.wfFrom, Bool.and_eq_true] at h
  exact Memory.wfFrom_weaken h.2 (by simp)

theorem Memory.write_wfFrom {m : Memory} {low : Option Nat} {a : Nat} (x : Byte)
    (h : Memory.wfFrom low m = true) (hl : low.all (· < a) = true) (ha : a < Config.memSize) :
    Memory.wfFrom low (m.write a x) = true := by
  induction m generalizing low with
  | nil => by_cases hx : x = Memory.unlisted a <;> simp [Memory.write, Memory.wfFrom, hx, hl, ha]
  | cons c rest ih =>
    obtain ⟨b, y⟩ := c
    have h0 := h
    simp only [Memory.wfFrom, Bool.and_eq_true, decide_eq_true_eq] at h
    unfold Memory.write
    split
    · split
      · exact h0
      · next hab hx => simp_all [Memory.wfFrom]
    · split
      · split
        · refine Memory.wfFrom_weaken h.2 fun d hd => ?_
          cases low <;> simp_all
          omega
        · next e hx => subst e; simp_all [Memory.wfFrom]
      · next h1 h2 =>
        simp only [Memory.wfFrom, Bool.and_eq_true, decide_eq_true_eq]
        exact ⟨h.1, ih h.2 (by simp; omega)⟩

/-- A write below 4096 keeps the canonical form. -/
theorem Memory.write_wf {m : Memory} {a : Nat} (x : Byte) (h : m.wf = true) (ha : a < Config.memSize) :
    (m.write a x).wf = true :=
  Memory.write_wfFrom x h rfl ha

/-- A write leaves every other address alone. -/
theorem Memory.read_write_other (m : Memory) {a c : Nat} (x : Byte) (h : c ≠ a) :
    (m.write a x).read c = m.read c := by
  induction m with
  | nil => by_cases hx : x = Memory.unlisted a <;> simp [Memory.write, Memory.read, hx, h.symm]
  | cons d rest ih =>
    obtain ⟨b, y⟩ := d
    unfold Memory.write
    split
    · split <;> simp [Memory.read, h.symm]
    · split
      · next e => subst e; split <;> simp [Memory.read, h.symm]
      · simp [Memory.read, ih]

theorem Memory.read_write_same_from {m : Memory} {low : Option Nat} {a : Nat} (x : Byte)
    (h : Memory.wfFrom low m = true) : (m.write a x).read a = x := by
  induction m generalizing low with
  | nil => by_cases hx : x = Memory.unlisted a <;> simp [Memory.write, Memory.read, hx]
  | cons c rest ih =>
    obtain ⟨b, y⟩ := c
    simp only [Memory.wfFrom, Bool.and_eq_true, decide_eq_true_eq] at h
    unfold Memory.write
    split
    · next hab =>
      split
      · next hx =>
        have hne : b ≠ a := by omega
        simp [Memory.read, hne, Memory.read_of_le h.2 (by omega : a ≤ b), hx]
      · simp [Memory.read]
    · split
      · next e =>
        subst e
        split
        · next hx => rw [Memory.read_of_le h.2 (Nat.le_refl _), hx]
        · simp [Memory.read]
      · next h1 h2 =>
        have hne : b ≠ a := fun e => h2 e.symm
        simp [Memory.read, hne, ih h.2]

/-- A write is read back (R43). -/
theorem Memory.read_write_same {m : Memory} {a : Nat} (x : Byte) (h : m.wf = true) :
    (m.write a x).read a = x :=
  Memory.read_write_same_from x h

theorem Memory.writeBytes_wf {m : Memory} {a : Nat} (bs : List Byte) (h : m.wf = true)
    (ha : a + bs.length ≤ Config.memSize) : (m.writeBytes a bs).wf = true := by
  induction bs generalizing m a with
  | nil => exact h
  | cons b bs ih =>
    simp only [List.length_cons] at ha
    exact ih (Memory.write_wf b h (by omega)) (by omega)

/-- Bytes stored at `a` leave every address outside `a .. a + length - 1` alone. -/
theorem Memory.read_writeBytes_other (m : Memory) {a c : Nat} (bs : List Byte)
    (h : c < a ∨ a + bs.length ≤ c) : (m.writeBytes a bs).read c = m.read c := by
  induction bs generalizing m a with
  | nil => rfl
  | cons b bs ih =>
    simp only [List.length_cons] at h
    rw [Memory.writeBytes, ih _ (by omega), Memory.read_write_other _ _ (by omega)]

/-- Bytes stored at `a` are read back. -/
theorem Memory.read_writeBytes_same {m : Memory} {a k : Nat} (bs : List Byte) (h : m.wf = true)
    (ha : a + bs.length ≤ Config.memSize) (hk : k < bs.length) :
    (m.writeBytes a bs).read (a + k) = bs[k] := by
  induction bs generalizing m a k with
  | nil => simp at hk
  | cons b bs ih =>
    simp only [List.length_cons] at ha hk
    cases k with
    | zero =>
      rw [Memory.writeBytes, Memory.read_writeBytes_other _ _ (by omega)]
      exact Memory.read_write_same b h
    | succ k =>
      rw [Memory.writeBytes, show a + (k + 1) = (a + 1) + k by omega]
      exact ih (Memory.write_wf b h (by omega)) (by omega) (by omega)

@[simp] theorem Memory.readBytes_length (m : Memory) (a n : Nat) : (m.readBytes a n).length = n := by
  induction n generalizing a with
  | zero => rfl
  | succ n ih => simp [Memory.readBytes, ih]

theorem Memory.getElem_readBytes (m : Memory) (a n k : Nat) (h : k < (m.readBytes a n).length) :
    (m.readBytes a n)[k] = m.read (a + k) := by
  induction n generalizing a k with
  | zero => simp at h
  | succ n ih =>
    cases k with
    | zero => rfl
    | succ k =>
      simp only [Memory.readBytes, List.getElem_cons_succ]
      rw [ih, show a + 1 + k = a + (k + 1) by omega]

/-- An entry of a canonical memory is read as it stands and differs from the unlisted value. -/
theorem Memory.ext_from {m m' : Memory} {low low' : Option Nat} (h : Memory.wfFrom low m = true)
    (h' : Memory.wfFrom low' m' = true) (e : ∀ a, m.read a = m'.read a) : m = m' := by
  induction m generalizing m' low low' with
  | nil =>
    cases m' with
    | nil => rfl
    | cons c rest =>
      obtain ⟨b, y⟩ := c
      simp only [Memory.wfFrom, Bool.and_eq_true, bne_iff_ne] at h'
      have := e b
      simp only [Memory.read, if_true] at this
      exact absurd this.symm h'.1.2
  | cons c rest ih =>
    obtain ⟨b, y⟩ := c
    have h0 := h
    simp only [Memory.wfFrom, Bool.and_eq_true, bne_iff_ne, decide_eq_true_eq] at h
    cases m' with
    | nil =>
      have := e b
      simp only [Memory.read, if_true] at this
      exact absurd this h.1.2
    | cons c' rest' =>
      obtain ⟨b', y'⟩ := c'
      simp only [Memory.wfFrom, Bool.and_eq_true, bne_iff_ne, decide_eq_true_eq] at h'
      have hb : b = b' := by
        have e1 := e b
        have e2 := e b'
        simp only [Memory.read, if_true] at e1 e2
        rcases Nat.lt_trichotomy b b' with hlt | heq | hgt
        · have hne : b' ≠ b := by omega
          rw [if_neg hne, Memory.read_of_le h'.2 (by omega : b ≤ b')] at e1
          exact absurd e1 h.1.2
        · exact heq
        · have hne : b ≠ b' := by omega
          rw [if_neg hne, Memory.read_of_le h.2 (by omega : b' ≤ b)] at e2
          exact absurd e2.symm h'.1.2
      subst hb
      have hy : y = y' := by simpa [Memory.read] using e b
      subst hy
      have : rest = rest' := by
        refine ih h.2 h'.2 fun a => ?_
        by_cases hab : b = a
        · subst hab
          rw [Memory.read_of_le h.2 (Nat.le_refl _), Memory.read_of_le h'.2 (Nat.le_refl _)]
        · simpa [Memory.read, hab] using e a
      rw [this]

/-- Two canonical memories that read alike at every address are equal. -/
theorem Memory.ext_of_wf {m m' : Memory} (h : m.wf = true) (h' : m'.wf = true)
    (e : ∀ a, m.read a = m'.read a) : m = m' :=
  Memory.ext_from h h' e

/-- Memory after reset is canonical, whatever the font (10_state.md R23). -/
theorem fontMemory_wf (font : Vector Byte 80) : (fontMemory font).wf = true :=
  Memory.writeBytes_wf _ rfl (by simp [Config.memSize])

/-- A font byte after reset (R24). -/
theorem fontMemory_read (font : Vector Byte 80) {k : Nat} (h : k < 80) :
    (fontMemory font).read k = font[k] := by
  have := Memory.read_writeBytes_same (m := []) (a := 0) (k := k) font.toList rfl
    (by simp [Config.memSize]) (by simpa using h)
  simpa [fontMemory] using this

/-- The reserved bytes and the program region after reset (R41). -/
theorem fontMemory_read_zero (font : Vector Byte 80) {a : Nat} (h : 80 ≤ a) :
    (fontMemory font).read a = 0 := by
  rw [fontMemory, Memory.read_writeBytes_other _ _ (by simp; omega)]
  simp [Memory.read, Memory.unlisted, Vector.getElem?_eq_none h]

end Sys2Proof.Machine
end

