-- ==== Sys2Proof/Laws/Ops.lean ====
section
/-! SUPPORT. What each shared operation can do, said once: the two bounds checks, the key check, the skip,
the ends of an instruction, the poll of the latch, fetch. Later proofs cite these and do not unfold. -/

namespace Sys2Proof.Machine

/-! ### Bounds checks -/

theorem firstOutside_none_iff {base n : Nat} :
    firstOutside base n = none ↔ n = 0 ∨ base + n ≤ 4096 := by
  unfold firstOutside Config.memSize
  split <;> simp <;> omega

theorem firstOutside_of_fits {base n : Nat} (h : n = 0 ∨ base + n ≤ 4096) : firstOutside base n = none :=
  firstOutside_none_iff.mpr h

theorem firstOutside_of_outside {base n : Nat} (hn : 0 < n) (h : 4096 < base + n) :
    firstOutside base n = some (max base 4096) := by
  simp [firstOutside, Config.memSize, hn, h]

theorem checkMem_of_fits {base n : Nat} (s : State) (go : Result) (h : n = 0 ∨ base + n ≤ 4096) :
    checkMem base n s go = go := by
  simp [checkMem, firstOutside_of_fits h]

theorem checkMem_of_outside {base n : Nat} (s : State) (go : Result) (hn : 0 < n)
    (h : 4096 < base + n) :
    checkMem base n s go = raiseFatal (.outOfBounds .mem (max base 4096)) s := by
  simp [checkMem, firstOutside_of_outside hn h]

/-- The memory check either goes on, the range fitting, or raises the lowest address outside. -/
theorem checkMem_cases (base n : Nat) (s : State) (go : Result) :
    (n = 0 ∨ base + n ≤ 4096) ∧ checkMem base n s go = go ∨
    0 < n ∧ 4096 < base + n ∧
      checkMem base n s go = raiseFatal (.outOfBounds .mem (max base 4096)) s := by
  by_cases h : n = 0 ∨ base + n ≤ 4096
  · exact .inl ⟨h, checkMem_of_fits s go h⟩
  · exact .inr ⟨by omega, by omega, checkMem_of_outside s go (by omega) (by omega)⟩

theorem spriteOutside_of_fits {x0 y0 n : Nat} (h : n = 0 ∨ 64 * (y0 + n - 1) + x0 + 7 ≤ 2047) :
    spriteOutside x0 y0 n = none := by
  unfold spriteOutside cellIndex Config.videoWidth Config.videoCells
  split
  · omega
  · rfl

theorem spriteOutside_of_outside {x0 y0 n : Nat} (hn : 0 < n)
    (h : 2047 < 64 * (y0 + n - 1) + x0 + 7) :
    spriteOutside x0 y0 n = some (64 * (y0 + n - 1) + x0 + 7) := by
  exact if_pos ⟨hn, by simp only [cellIndex, Config.videoWidth, Config.videoCells]; omega⟩

theorem checkVideo_of_fits {x0 y0 n : Nat} (s : State) (go : Result)
    (h : n = 0 ∨ 64 * (y0 + n - 1) + x0 + 7 ≤ 2047) : checkVideo x0 y0 n s go = go := by
  simp [checkVideo, spriteOutside_of_fits h]

theorem checkVideo_of_outside {x0 y0 n : Nat} (s : State) (go : Result) (hn : 0 < n)
    (h : 2047 < 64 * (y0 + n - 1) + x0 + 7) :
    checkVideo x0 y0 n s go = raiseFatal (.outOfBounds .video (64 * (y0 + n - 1) + x0 + 7)) s := by
  simp [checkVideo, spriteOutside_of_outside hn h]

/-- The video check either goes on, the rectangle fitting, or raises its largest cell index. -/
theorem checkVideo_cases (x0 y0 n : Nat) (s : State) (go : Result) :
    (n = 0 ∨ 64 * (y0 + n - 1) + x0 + 7 ≤ 2047) ∧ checkVideo x0 y0 n s go = go ∨
    0 < n ∧ 2047 < 64 * (y0 + n - 1) + x0 + 7 ∧
      checkVideo x0 y0 n s go = raiseFatal (.outOfBounds .video (64 * (y0 + n - 1) + x0 + 7)) s := by
  by_cases h : n = 0 ∨ 64 * (y0 + n - 1) + x0 + 7 ≤ 2047
  · exact .inl ⟨h, checkVideo_of_fits s go h⟩
  · exact .inr ⟨by omega, by omega, checkVideo_of_outside s go (by omega) (by omega)⟩

theorem withKey_of_lt {k : Byte} (s : State) (go : Bool → Result) (h : k.toNat < 16) :
    withKey k s go = go s.keys[k.toNat] := by
  simp [withKey, h]

theorem withKey_of_ge {k : Byte} (s : State) (go : Bool → Result) (h : 16 ≤ k.toNat) :
    withKey k s go = raiseFatal (.outOfBounds .key k.toNat) s := by
  simp [withKey, Nat.not_lt.mpr h]

/-! ### Ends of an instruction -/

theorem jumpTo_eq (p : Word) (e : Event) (s : State) : jumpTo p e s = .next (finish p e s) := rfl

theorem advance_eq (e : Event) (s : State) : advance e s = .next (finish (s.pc + 2) e s) := rfl

theorem skipIf_eq (c : Bool) (s : State) :
    skipIf c s = .next (finish (s.pc + if c then 4 else 2) .none s) := by
  cases c <;> rfl

theorem raiseFatal_eq (f : FatalCondition) (s : State) : raiseFatal f s = .next (withFatal f s) := rfl

/-! ### Register writes with a flag -/

/-- Result then flag: `VF` holds the flag, whatever `x` is (41_load_alu.md R113). -/
@[simp] theorem readReg_writeRegThenFlag_vf (x : Nibble) (b flag : Byte) (s : State) :
    readReg (writeRegThenFlag x b flag s) vf = flag := by
  simp [writeRegThenFlag]

theorem readReg_writeRegThenFlag (x y : Nibble) (b flag : Byte) (s : State) :
    readReg (writeRegThenFlag x b flag s) y =
      if y = vf then flag else if y = x then b else readReg s y := by
  simp [writeRegThenFlag, readReg_writeReg]

theorem readReg_writeFlagThenShift (x y : Nibble) (flag shift : Byte → Byte) (s : State) :
    readReg (writeFlagThenShift x flag shift s) y =
      if y = x then shift (if x = vf then flag (readReg s x) else readReg s x)
      else if y = vf then flag (readReg s x) else readReg s y := by
  simp [writeFlagThenShift, readReg_writeReg]

/-! ### The latch -/

theorem pollWaitForKey_arm {s : State} (h : s.awaiting = false) :
    pollWaitForKey s = (none, armWait s) := by
  simp [pollWaitForKey, h]

theorem pollWaitForKey_pending {s : State} (h : s.awaiting = true) (hp : s.lastPress = none) :
    pollWaitForKey s = (none, s) := by
  simp [pollWaitForKey, h, hp]

theorem pollWaitForKey_captured {s : State} {k : Nibble} (h : s.awaiting = true)
    (hp : s.lastPress = some k) : pollWaitForKey s = (some k, disarmWait s) := by
  simp [pollWaitForKey, h, hp]

/-! ### Fetch -/

theorem fetch_of_fits {s : State} (h : s.pc.toNat ≤ 4094) : fetch s = .ok (fetchWord s) := by
  simp [fetch, firstOutside_of_fits (.inr (by omega : s.pc.toNat + 2 ≤ 4096))]

theorem fetch_of_outside {s : State} (h : 4095 ≤ s.pc.toNat) :
    fetch s = .error (max s.pc.toNat 4096) := by
  simp [fetch, firstOutside_of_outside (by omega : 0 < 2) (by omega : 4096 < s.pc.toNat + 2)]

theorem fetch_ok_inv {s : State} {op : Word} (h : fetch s = .ok op) :
    s.pc.toNat ≤ 4094 ∧ op = fetchWord s := by
  by_cases hp : s.pc.toNat ≤ 4094
  · rw [fetch_of_fits hp] at h
    exact ⟨hp, (Except.ok.inj h).symm⟩
  · rw [fetch_of_outside (by omega)] at h
    cases h

end Sys2Proof.Machine
end

