-- ==== Sys2Proof/Laws/PerInstr.lean ====
section
/-! SUPPORT. Facts per instruction, as syntax. The family `TableRow`: the word the encoder gives an
instruction selects that instruction's row of spec/opcode_table.json, whose mask and match stand here as
the table has them (30_encoding.md R64, R65). -/

namespace Sys2Proof.Laws

/-- The mask and the match of an instruction's row in spec/opcode_table.json. -/
def TableRow.maskAndMatch : Instr → Word × Word
  | .cls => (0xFFFF, 0x00E0)
  | .ret => (0xFFFF, 0x00EE)
  | .jp _ => (0xF000, 0x1000)
  | .call _ => (0xF000, 0x2000)
  | .seImm _ _ => (0xF000, 0x3000)
  | .sneImm _ _ => (0xF000, 0x4000)
  | .seReg _ _ => (0xF00F, 0x5000)
  | .ldImm _ _ => (0xF000, 0x6000)
  | .addImm _ _ => (0xF000, 0x7000)
  | .ldReg _ _ => (0xF00F, 0x8000)
  | .orReg _ _ => (0xF00F, 0x8001)
  | .andReg _ _ => (0xF00F, 0x8002)
  | .xorReg _ _ => (0xF00F, 0x8003)
  | .addReg _ _ => (0xF00F, 0x8004)
  | .subReg _ _ => (0xF00F, 0x8005)
  | .shr _ _ => (0xF00F, 0x8006)
  | .subn _ _ => (0xF00F, 0x8007)
  | .shl _ _ => (0xF00F, 0x800E)
  | .sneReg _ _ => (0xF00F, 0x9000)
  | .ldI _ => (0xF000, 0xA000)
  | .jpV0 _ => (0xF000, 0xB000)
  | .rnd _ _ => (0xF000, 0xC000)
  | .drw _ _ _ => (0xF000, 0xD000)
  | .skp _ => (0xF0FF, 0xE09E)
  | .sknp _ => (0xF0FF, 0xE0A1)
  | .ldVxDT _ => (0xF0FF, 0xF007)
  | .ldVxK _ => (0xF0FF, 0xF00A)
  | .ldDT _ => (0xF0FF, 0xF015)
  | .ldST _ => (0xF0FF, 0xF018)
  | .addI _ => (0xF0FF, 0xF01E)
  | .ldF _ => (0xF0FF, 0xF029)
  | .ldB _ => (0xF0FF, 0xF033)
  | .storeRegs _ => (0xF0FF, 0xF055)
  | .loadRegs _ => (0xF0FF, 0xF065)

/-- `(encode i & mask) = match` for the row of `i`. -/
def TableRow.Statement (i : Instr) : Prop :=
  encode i &&& (TableRow.maskAndMatch i).1 = (TableRow.maskAndMatch i).2

/-- Masking with `0xF000` keeps the opcode nibble of format `NNN`. -/
theorem TableRow.mask_formatNNN (n3 : Nibble) (nnn : Addr12) :
    formatNNN n3 nnn &&& 0xF000 = formatNNN n3 0 := by
  ext i hi
  interval_cases i <;> simp [formatNNN]

/-- Masking with `0xF000` keeps the opcode nibble of format `XNN`. -/
theorem TableRow.mask_formatXNN (n3 x : Nibble) (nn : Byte) :
    formatXNN n3 x nn &&& 0xF000 = formatXNN n3 0 0 := by
  ext i hi
  interval_cases i <;> simp [formatXNN]

/-- Masking with `0xF0FF` keeps the opcode nibble and the sub-function byte of format `X`. -/
theorem TableRow.mask_formatX (n3 x : Nibble) (low : Byte) :
    formatXNN n3 x low &&& 0xF0FF = formatXNN n3 0 low := by
  ext i hi
  interval_cases i <;> simp [formatXNN]

/-- Masking with `0xF00F` keeps the opcode nibble and the sub-function nibble of format `XY`. -/
theorem TableRow.mask_formatXY (n3 x y n0 : Nibble) :
    formatXYN n3 x y n0 &&& 0xF00F = formatXYN n3 0 0 n0 := by
  ext i hi
  interval_cases i <;> simp [formatXYN]

/-- Masking with `0xF000` keeps the opcode nibble of format `XYN`. -/
theorem TableRow.mask_formatXYN (n3 x y n : Nibble) :
    formatXYN n3 x y n &&& 0xF000 = formatXYN n3 0 0 0 := by
  ext i hi
  interval_cases i <;> simp [formatXYN]

theorem TableRow.cls : TableRow.Statement (.cls) :=
  rfl

theorem TableRow.ret : TableRow.Statement (.ret) :=
  rfl

theorem TableRow.jp (nnn : Addr12) : TableRow.Statement (.jp nnn) :=
  TableRow.mask_formatNNN _ _

theorem TableRow.call (nnn : Addr12) : TableRow.Statement (.call nnn) :=
  TableRow.mask_formatNNN _ _

theorem TableRow.seImm (x : Nibble) (nn : Byte) : TableRow.Statement (.seImm x nn) :=
  TableRow.mask_formatXNN _ _ _

theorem TableRow.sneImm (x : Nibble) (nn : Byte) : TableRow.Statement (.sneImm x nn) :=
  TableRow.mask_formatXNN _ _ _

theorem TableRow.seReg (x : Nibble) (y : Nibble) : TableRow.Statement (.seReg x y) :=
  TableRow.mask_formatXY _ _ _ _

theorem TableRow.ldImm (x : Nibble) (nn : Byte) : TableRow.Statement (.ldImm x nn) :=
  TableRow.mask_formatXNN _ _ _

theorem TableRow.addImm (x : Nibble) (nn : Byte) : TableRow.Statement (.addImm x nn) :=
  TableRow.mask_formatXNN _ _ _

theorem TableRow.ldReg (x : Nibble) (y : Nibble) : TableRow.Statement (.ldReg x y) :=
  TableRow.mask_formatXY _ _ _ _

theorem TableRow.orReg (x : Nibble) (y : Nibble) : TableRow.Statement (.orReg x y) :=
  TableRow.mask_formatXY _ _ _ _

theorem TableRow.andReg (x : Nibble) (y : Nibble) : TableRow.Statement (.andReg x y) :=
  TableRow.mask_formatXY _ _ _ _

theorem TableRow.xorReg (x : Nibble) (y : Nibble) : TableRow.Statement (.xorReg x y) :=
  TableRow.mask_formatXY _ _ _ _

theorem TableRow.addReg (x : Nibble) (y : Nibble) : TableRow.Statement (.addReg x y) :=
  TableRow.mask_formatXY _ _ _ _

theorem TableRow.subReg (x : Nibble) (y : Nibble) : TableRow.Statement (.subReg x y) :=
  TableRow.mask_formatXY _ _ _ _

theorem TableRow.shr (x : Nibble) (y : Nibble) : TableRow.Statement (.shr x y) :=
  TableRow.mask_formatXY _ _ _ _

theorem TableRow.subn (x : Nibble) (y : Nibble) : TableRow.Statement (.subn x y) :=
  TableRow.mask_formatXY _ _ _ _

theorem TableRow.shl (x : Nibble) (y : Nibble) : TableRow.Statement (.shl x y) :=
  TableRow.mask_formatXY _ _ _ _

theorem TableRow.sneReg (x : Nibble) (y : Nibble) : TableRow.Statement (.sneReg x y) :=
  TableRow.mask_formatXY _ _ _ _

theorem TableRow.ldI (nnn : Addr12) : TableRow.Statement (.ldI nnn) :=
  TableRow.mask_formatNNN _ _

theorem TableRow.jpV0 (nnn : Addr12) : TableRow.Statement (.jpV0 nnn) :=
  TableRow.mask_formatNNN _ _

theorem TableRow.rnd (x : Nibble) (nn : Byte) : TableRow.Statement (.rnd x nn) :=
  TableRow.mask_formatXNN _ _ _

theorem TableRow.drw (x : Nibble) (y : Nibble) (n : Nibble) : TableRow.Statement (.drw x y n) :=
  TableRow.mask_formatXYN _ _ _ _

theorem TableRow.skp (x : Nibble) : TableRow.Statement (.skp x) :=
  TableRow.mask_formatX _ _ _

theorem TableRow.sknp (x : Nibble) : TableRow.Statement (.sknp x) :=
  TableRow.mask_formatX _ _ _

theorem TableRow.ldVxDT (x : Nibble) : TableRow.Statement (.ldVxDT x) :=
  TableRow.mask_formatX _ _ _

theorem TableRow.ldVxK (x : Nibble) : TableRow.Statement (.ldVxK x) :=
  TableRow.mask_formatX _ _ _

theorem TableRow.ldDT (x : Nibble) : TableRow.Statement (.ldDT x) :=
  TableRow.mask_formatX _ _ _

theorem TableRow.ldST (x : Nibble) : TableRow.Statement (.ldST x) :=
  TableRow.mask_formatX _ _ _

theorem TableRow.addI (x : Nibble) : TableRow.Statement (.addI x) :=
  TableRow.mask_formatX _ _ _

theorem TableRow.ldF (x : Nibble) : TableRow.Statement (.ldF x) :=
  TableRow.mask_formatX _ _ _

theorem TableRow.ldB (x : Nibble) : TableRow.Statement (.ldB x) :=
  TableRow.mask_formatX _ _ _

theorem TableRow.storeRegs (x : Nibble) : TableRow.Statement (.storeRegs x) :=
  TableRow.mask_formatX _ _ _

theorem TableRow.loadRegs (x : Nibble) : TableRow.Statement (.loadRegs x) :=
  TableRow.mask_formatX _ _ _

end Sys2Proof.Laws
end

