-- ==== Sys2Proof/Laws/Step.lean ====
section
/-! SUPPORT. What a step can do, said once: which operation comes next (60_exceptions.md R184, log 4), and
the four ways a `Step` can go (R181, R185). -/

namespace Sys2Proof.Machine

/-- A step performs the operation that comes next. -/
theorem step_of_comesNext {op : Operation} {s s' : State} (h : ComesNext op s s') :
    step s = perform op s' := by
  obtain ⟨rest, hs, rfl⟩ | ⟨hs, he, rfl, rfl⟩ | ⟨n, hs, he, rfl, rfl⟩ := h
  · simp [step, nextOperation, hs, withSchedule]
  · simp [step, nextOperation, hs, he]
  · simp [step, nextOperation, hs, he, withEnvironment]

/-- In every state some operation comes next. -/
theorem exists_comesNext (s : State) : ∃ op s', ComesNext op s s' := by
  cases hs : s.schedule with
  | cons op rest => exact ⟨op, _, .inl ⟨rest, hs, rfl⟩⟩
  | nil =>
    cases he : s.environment with
    | onlySteps => exact ⟨_, _, .inr (.inl ⟨hs, he, rfl, rfl⟩)⟩
    | free n => exact ⟨_, _, .inr (.inr ⟨n, hs, he, rfl, rfl⟩)⟩

/-- Taking the next operation changes only what the environment performs after it. -/
theorem comesNext_frame {op : Operation} {s s' : State} (h : ComesNext op s s') :
    s' = { s with schedule := s'.schedule, environment := s'.environment } := by
  obtain ⟨rest, -, rfl⟩ | ⟨-, -, -, rfl⟩ | ⟨n, -, -, -, rfl⟩ := h <;> rfl

/-- A `Step` finds the core halted, raises at fetch, raises at decode, or executes an instruction. -/
theorem coreStep_cases (s : State) :
    (s.Halted ∧ coreStep s = .next (withOutput (.event .none) s)) ∨
    (s.Running ∧ 4095 ≤ s.pc.toNat ∧
      coreStep s = raiseFatal (.outOfBounds .mem (max s.pc.toNat 4096)) s) ∨
    (s.Running ∧ s.pc.toNat ≤ 4094 ∧ (∀ i, decode (fetchWord s) ≠ .ok i) ∧
      coreStep s = raiseFatal (.unimplementedOpcode (fetchWord s)) s) ∨
    ∃ i, s.Running ∧ s.pc.toNat ≤ 4094 ∧ decode (fetchWord s) = .ok i ∧ coreStep s = exec i s := by
  cases hr : s.status with
  | fatal f => exact .inl ⟨⟨f, hr⟩, by simp [coreStep, hr]⟩
  | running =>
    refine .inr ?_
    by_cases hp : s.pc.toNat ≤ 4094
    · refine .inr ?_
      cases hd : decode (fetchWord s) with
      | error r => exact .inl ⟨hr, hp, by simp, by simp [coreStep, hr, fetch_of_fits hp, hd]⟩
      | ok i => exact .inr ⟨i, hr, hp, rfl, by simp [coreStep, hr, fetch_of_fits hp, hd]⟩
    · have hp' : 4095 ≤ s.pc.toNat := by omega
      exact .inl ⟨hr, hp', by simp [coreStep, hr, fetch_of_outside hp']⟩

end Sys2Proof.Machine
end

