-- ==== Sys2Proof/Laws/Video.lean ====
section
/-! SUPPORT. Laws of video memory (spec 43_display.md R140, R142): the cell after a flip, and a draw as a
sequence of cell flips, one for each 1 bit of the sprite. -/

namespace Sys2Proof.Machine

theorem Video.cell_eq (v : Video) {k : Nat} (h : k < 2048) :
    v.cell k = (v[k / 64]'(by omega)).getLsbD (k % 64) := by
  have hk : k / 64 < 32 := by omega
  simp [Video.cell, Config.videoWidth, Vector.getElem?_eq_getElem hk]

/-- A cell outside the 2048 reads off. -/
theorem Video.cell_of_ge (v : Video) {k : Nat} (h : 2048 ≤ k) : v.cell k = false := by
  have hk : 32 ≤ k / 64 := by omega
  simp [Video.cell, Config.videoWidth, Vector.getElem?_eq_none hk]

/-- Flipping cell `k` inverts cell `k` and no other (R142). -/
theorem Video.cell_flip (v : Video) {k : Nat} (h : k < 2048) (j : Nat) :
    (v.flip k).cell j = ((v.cell j) ^^ decide (j = k)) := by
  by_cases hj : j < 2048
  · have hjk : j / 64 < 32 := by omega
    have hkk : k / 64 < 32 := by omega
    rw [Video.cell_eq _ hj, Video.cell_eq _ hj]
    simp only [Video.flip, Config.videoWidth]
    rw [Vector.getElem_setIfInBounds]
    split
    · next e =>
      have hm : k % 64 < 64 := Nat.mod_lt _ (by omega)
      have hd : decide (k % 64 = j % 64) = decide (j = k) := by
        apply decide_eq_decide.mpr
        omega
      simp only [e, Vector.getElem?_eq_getElem hjk, Option.getD_some, BitVec.getLsbD_xor,
          BitVec.getLsbD_twoPow, hm, hd, decide_true, Bool.true_and]
    · next e =>
      have : j ≠ k := fun h => e (by rw [h])
      simp [this]
  · have : j ≠ k := by omega
    simp [Video.cell_of_ge _ (Nat.not_lt.mp hj), this]

@[simp] theorem Video.cell_blank (k : Nat) : Video.blank.cell k = false := by
  simp only [Video.cell, Video.blank, Config.videoWidth]
  by_cases h : k / 64 < 32
  · simp [Vector.getElem?_eq_getElem h]
  · simp [Vector.getElem?_eq_none (Nat.not_lt.mp h)]

/-- Two video memories that agree cell by cell are equal. -/
theorem Video.ext_cells {v w : Video} (h : ∀ k < 2048, v.cell k = w.cell k) : v = w := by
  apply Vector.ext
  intro r hr
  apply BitVec.eq_of_getLsbD_eq
  intro c hc
  have e := h (64 * r + c) (by omega)
  rw [Video.cell_eq _ (by omega), Video.cell_eq _ (by omega)] at e
  have h1 : (64 * r + c) / 64 = r := by omega
  have h2 : (64 * r + c) % 64 = c := by omega
  simpa [h1, h2] using e

theorem drawCell_fst_cell (p : Video × Bool) {k : Nat} (h : k < 2048) (bit : Bool) (j : Nat) :
    (drawCell p k bit).1.cell j = (p.1.cell j ^^ (bit && decide (j = k))) := by
  cases bit <;> simp [drawCell, Video.cell_flip _ h]

theorem drawCell_snd (p : Video × Bool) (k : Nat) (bit : Bool) :
    (drawCell p k bit).2 = (p.2 || (bit && p.1.cell k)) := by
  cases bit <;> simp [drawCell]

/-- A row of a draw, written out. -/
theorem drawRow_eq (p : Video × Bool) (k0 : Nat) (b : Byte) :
    drawRow p k0 b =
      drawCell (drawCell (drawCell (drawCell (drawCell (drawCell (drawCell (drawCell p
        (k0 + 0) (b.getLsbD 7)) (k0 + 1) (b.getLsbD 6)) (k0 + 2) (b.getLsbD 5)) (k0 + 3) (b.getLsbD 4))
        (k0 + 4) (b.getLsbD 3)) (k0 + 5) (b.getLsbD 2)) (k0 + 6) (b.getLsbD 1)) (k0 + 7) (b.getLsbD 0) :=
  rfl

end Sys2Proof.Machine
end

