-- ==== Sys2Proof/Tests/Slice0.lean ====
section
/-! SUPPORT. Tests of the model: ill-formed terms, the words of spec/, one step of each instruction and of
each operation. Expected values are those of 95_test_vectors.md (named T<n>) or are worked out by hand from
the rule named. The last part shows, for each statement with hypotheses, states and operands that meet them. -/

namespace Sys2Proof.Tests

open Sys2Proof.Machine

/-! ### Helpers -/

/-- "Start" of 95_test_vectors.md: after `Reset`, `PC` at `0x200`. -/
def start : State := { State.reset with pc := 0x200 }

def regs (l : List (Nibble × Byte)) (s : State) : State := l.foldl (fun t p => writeReg p.1 p.2 t) s

def bytes (a : Nat) (l : List Byte) (s : State) : State := { s with mem := s.mem.writeBytes a l }

/-- Video memory with exactly the listed cells on, each listed once. -/
def cellsOn (l : List Nat) : Video := l.foldl Video.flip Video.blank

/-- One step of the word `w`, placed at `PC`. -/
def run (w : Nat) (s : State) : Result := step (s.withFetchWord 16 w)

def gives (r : Result) (p : State → Bool) : Bool :=
  match r with
  | .next t => p t
  | .fault _ => false
  | .refused _ => false

theorem gives_next {r : Result} {p : State → Bool} (h : gives r p = true) : ∃ t, r = .next t ∧ p t = true := by
  cases r with
  | next t => exact ⟨t, rfl, h⟩
  | fault f => cases h
  | refused f => cases h

/-- The step ended with `pc` and the event `e`, on a running core, and `p` holds after it. -/
def goesTo (pc : Word) (e : Event) (r : Result) (p : State → Bool) : Bool :=
  gives r fun t => t.pc = pc && t.output = .event e && t.status = .running && p t

/-- The step raised `f` with `PC` still at `pc`. -/
def raises (f : FatalCondition) (pc : Word) (r : Result) : Bool :=
  gives r fun t => t.status = .fatal f && t.pc = pc && t.output = .event .none

/-! ### WellFormed: each check refuses an ill-formed term -/

theorem test_setPressed_16_illFormed : (Operation.setPressed 16 true).wellFormed = false := by decide

theorem test_rom_3585_illFormed : romWellFormed (List.replicate 3585 0) = false := by
  rw [romWellFormed, List.length_replicate]; decide

theorem test_loadProgram_3585_illFormed :
    (Operation.loadProgram (List.replicate 3585 0)).wellFormed = false :=
  test_rom_3585_illFormed

theorem test_rom_3584_wellFormed : romWellFormed (List.replicate 3584 0) = true := by
  rw [romWellFormed, List.length_replicate]; decide

/-! ### Decoding: words written out from the patterns of R65, and the encoder back -/

/-- The word decodes to the instruction and the instruction encodes to the word. -/
abbrev Word.Means (w : Word) (i : Instr) : Prop := decode w = .ok i ∧ encode i = w

theorem test_word_cls : Word.Means 0b0000000011100000 .cls := by decide
theorem test_word_ret : Word.Means 0b0000000011101110 .ret := by decide
theorem test_word_jp : Word.Means 0b0001101010111100 (.jp 0xABC) := by decide
theorem test_word_call : Word.Means 0b0010111111111110 (.call 0xFFE) := by decide
theorem test_word_seImm : Word.Means 0b0011001100101010 (.seImm 3 0x2A) := by decide
theorem test_word_sneImm : Word.Means 0b0100001100101010 (.sneImm 3 0x2A) := by decide
theorem test_word_seReg : Word.Means 0b0101000100100000 (.seReg 1 2) := by decide
theorem test_word_ldImm : Word.Means 0b0110101001111111 (.ldImm 10 0x7F) := by decide
theorem test_word_addImm : Word.Means 0b0111111100000001 (.addImm 15 0x01) := by decide
theorem test_word_ldReg : Word.Means 0b1000000100100000 (.ldReg 1 2) := by decide
theorem test_word_orReg : Word.Means 0b1000000100100001 (.orReg 1 2) := by decide
theorem test_word_andReg : Word.Means 0b1000000100100010 (.andReg 1 2) := by decide
theorem test_word_xorReg : Word.Means 0b1000000100100011 (.xorReg 1 2) := by decide
theorem test_word_addReg : Word.Means 0b1000000100100100 (.addReg 1 2) := by decide
theorem test_word_subReg : Word.Means 0b1000000100100101 (.subReg 1 2) := by decide
theorem test_word_shr : Word.Means 0b1000000100100110 (.shr 1 2) := by decide
theorem test_word_subn : Word.Means 0b1000000100100111 (.subn 1 2) := by decide
theorem test_word_shl : Word.Means 0b1000111100001110 (.shl 15 0) := by decide
theorem test_word_sneReg : Word.Means 0b1001000100100000 (.sneReg 1 2) := by decide
theorem test_word_ldI : Word.Means 0b1010001000000011 (.ldI 0x203) := by decide
theorem test_word_jpV0 : Word.Means 0b1011001100000000 (.jpV0 0x300) := by decide
theorem test_word_rnd : Word.Means 0b1100001100001111 (.rnd 3 0x0F) := by decide
theorem test_word_drw : Word.Means 0b1101000000010010 (.drw 0 1 2) := by decide
theorem test_word_skp : Word.Means 0b1110010110011110 (.skp 5) := by decide
theorem test_word_sknp : Word.Means 0b1110010110100001 (.sknp 5) := by decide
theorem test_word_ldVxDT : Word.Means 0b1111001000000111 (.ldVxDT 2) := by decide
theorem test_word_ldVxK : Word.Means 0b1111001100001010 (.ldVxK 3) := by decide
theorem test_word_ldDT : Word.Means 0b1111001000010101 (.ldDT 2) := by decide
theorem test_word_ldST : Word.Means 0b1111001000011000 (.ldST 2) := by decide
theorem test_word_addI : Word.Means 0b1111001000011110 (.addI 2) := by decide
theorem test_word_ldF : Word.Means 0b1111010000101001 (.ldF 4) := by decide
theorem test_word_ldB : Word.Means 0b1111000100110011 (.ldB 1) := by decide
theorem test_word_storeRegs : Word.Means 0b1111001001010101 (.storeRegs 2) := by decide
theorem test_word_loadRegs : Word.Means 0b1111000101100101 (.loadRegs 1) := by decide

/-- T50.6: these words are no instruction. -/
theorem test_unimplemented_words :
    [0x0000, 0x00E1, 0x00EF, 0x00FD, 0x0123, 0x5121, 0x9121, 0x8128, 0x812F, 0xE59F, 0xE0A2, 0xF000,
      0xF256, 0xF075, 0xF085, 0xFFFF].all
      (fun w : Word => decode w = .error (.unimplemented w)) = true := by decide

/-- R60, R44: two bytes, the high byte first; what follows is left. -/
theorem test_decodeBytes_rest : decodeBytes [0x12, 0x34, 0x56] = .ok (.jp 0x234, [0x56]) := by decide

theorem test_decodeBytes_short : decodeBytes [0x12] = .error (.tooShort 1) := by decide

theorem test_decodeTableWord : decodeTableWord 16 0x8125 = some (.subReg 1 2) ∧
    decodeTableWord 16 0x0000 = none := by decide

/-! ### Control flow (T20, T22) -/

theorem test_ret_T20_1 :
    goesTo 0x2A0 .none (run 0x00EE { start with pc := 0x300, stack := [0x2A0, 0x202] })
      (fun t => t.stack = [0x202]) = true := by decide

theorem test_ret_T20_2 : raises .stackUnderflow 0x300 (run 0x00EE { start with pc := 0x300 }) = true := by
  decide

theorem test_jp_T20_4 : goesTo 0xABC .none (run 0x1ABC start) (fun _ => true) = true := by decide

/-- The top of the stack is the head of the list: `PC + 2 = 0x1000` is pushed. -/
theorem test_call_T20_9 :
    goesTo 0xFFE .none (run 0x2FFE { start with pc := 0xFFE }) (fun t => t.stack = [0x1000]) = true := by
  decide

theorem test_call_T20_10 :
    goesTo 0x200 .none (run 0x2200 { start with stack := [0x202] })
      (fun t => t.stack = [0x202, 0x202]) = true := by decide

theorem test_jpV0_T20_12 :
    goesTo 0x10FE .none (run 0xBFFF (regs [(0, 0xFF)] start)) (fun _ => true) = true := by decide

theorem test_jpV0_T20_13 :
    goesTo 0x300 .none (run 0xB300 (regs [(3, 9)] start)) (fun _ => true) = true := by decide

theorem test_seImm_T22 :
    goesTo 0x204 .none (run 0x332A (regs [(3, 0x2A)] start)) (fun _ => true) = true ∧
    goesTo 0x202 .none (run 0x332A (regs [(3, 0x2B)] start)) (fun _ => true) = true := by decide

theorem test_seImm_T22_4 :
    goesTo 0x1000 .none (run 0x3001 (regs [(0, 1)] { start with pc := 0xFFC })) (fun _ => true) = true := by
  decide

theorem test_sneImm_T22 :
    goesTo 0x202 .none (run 0x432A (regs [(3, 0x2A)] start)) (fun _ => true) = true ∧
    goesTo 0x204 .none (run 0x432A start) (fun _ => true) = true := by decide

theorem test_seReg_T22 :
    goesTo 0x204 .none (run 0x5120 (regs [(1, 7), (2, 7)] start)) (fun _ => true) = true ∧
    goesTo 0x202 .none (run 0x5120 (regs [(1, 7), (2, 8)] start)) (fun _ => true) = true := by decide

theorem test_sneReg_T22 :
    goesTo 0x204 .none (run 0x9120 (regs [(1, 7), (2, 8)] start)) (fun _ => true) = true ∧
    goesTo 0x202 .none (run 0x9120 (regs [(1, 7), (2, 7)] start)) (fun _ => true) = true := by decide

/-! ### Load, arithmetic, logic, shift, random (T30 to T35) -/

/-- One step from `0x200` with the registers `before` leaves the registers `after`. -/
def alu (w : Nat) (before after : List (Nibble × Byte)) : Bool :=
  goesTo 0x202 .none (run w (regs before start)) fun t => t.v = (regs after start).v

theorem test_ldImm_T30_2 : alu 0x6FFF [] [(15, 0xFF)] = true := by decide
theorem test_addImm_T30_4 : alu 0x7101 [(1, 0xFF), (15, 0x55)] [(15, 0x55)] = true := by decide
theorem test_addImm_T30_6 : alu 0x7F01 [(15, 0xFF)] [] = true := by decide
theorem test_ldReg_T30_7 : alu 0x8120 [(2, 0x33)] [(1, 0x33), (2, 0x33)] = true := by decide
theorem test_orReg_T30_8 :
    alu 0x8121 [(1, 0x0F), (2, 0xF0), (15, 0x77)] [(1, 0xFF), (2, 0xF0), (15, 0x77)] = true := by decide
theorem test_andReg_T30_9 : alu 0x8122 [(1, 0x3C), (2, 0x0F)] [(1, 0x0C), (2, 0x0F)] = true := by decide
theorem test_xorReg_T30_10 : alu 0x8123 [(1, 0xFF), (2, 0x0F)] [(1, 0xF0), (2, 0x0F)] = true := by decide
theorem test_addReg_T31_3 : alu 0x8124 [(1, 0xFF), (2, 0x01)] [(2, 0x01), (15, 1)] = true := by decide
theorem test_addReg_T33_3 : alu 0x81F4 [(1, 0xFF), (15, 0x01)] [(15, 1)] = true := by decide
theorem test_subReg_T32_3 : alu 0x8125 [(1, 0x20), (2, 0x20)] [(2, 0x20), (15, 1)] = true := by decide
theorem test_subReg_T33_7 : alu 0x81F5 [(1, 0x05), (15, 0x06)] [(1, 0xFF)] = true := by decide
theorem test_subn_T32_7 : alu 0x8127 [(1, 0x20), (2, 0x10)] [(1, 0xF0), (2, 0x10)] = true := by decide
theorem test_subn_T33_8 : alu 0x8F17 [(15, 0x05), (1, 0x03)] [(1, 0x03)] = true := by decide
theorem test_shr_T34_1 : alu 0x8126 [(1, 0x05), (2, 0xFF)] [(1, 0x02), (2, 0xFF), (15, 1)] = true := by
  decide
theorem test_shr_T34_10 : alu 0x8F06 [(15, 0x03)] [] = true := by decide
theorem test_shl_T34_6 : alu 0x810E [(1, 0x81)] [(1, 0x02), (15, 0x80)] = true := by decide
theorem test_shl_T34_12 : alu 0x8F0E [(15, 0xC1)] [] = true := by decide

/-- T35.2: the mask 0 gives 0 for every draw; one draw is consumed. -/
theorem test_rnd_T35_2 (s : State) :
    ∃ t, exec (.rnd 3 0x00) s = .next t ∧ readReg t 3 = 0 ∧ t.drawCount = s.drawCount + 1 :=
  ⟨_, rfl, by simp [finish, consumeDraw, readReg, writeReg], rfl⟩

/-! ### Index register and memory (T40 to T42) -/

theorem test_ldI_T40_2 : goesTo 0x202 .none (run 0xAFFF start) (fun t => t.i = 0xFFF) = true := by decide

theorem test_addI_T40_4 :
    goesTo 0x202 .none (run 0xF21E (regs [(2, 1)] { start with i := 0xFFFF }))
      (fun t => t.i = 0 && readReg t 15 = 0) = true := by decide

theorem test_addI_T40_5 :
    goesTo 0x202 .none (run 0xF21E (regs [(2, 1)] { start with i := 0xFFF })) (fun t => t.i = 0x1000) = true := by
  decide

theorem test_ldF_T40_12 :
    goesTo 0x202 .none (run 0xF429 (regs [(4, 0xFF)] start)) (fun t => t.i = 0x4FB) = true := by decide

theorem test_ldB_T41_1 :
    goesTo 0x202 .none (run 0xF133 (regs [(1, 0x9C)] { start with i := 0x300 }))
      (fun t => t.mem.readBytes 0x300 4 = [1, 5, 6, 0] && t.i = 0x300) = true := by decide

theorem test_ldB_T41_6 :
    raises (.outOfBounds .mem 4096) 0x200 (run 0xF133 (regs [(1, 0x64)] { start with i := 0xFFE })) = true := by
  decide

theorem test_storeRegs_T42_1 :
    goesTo 0x202 .none (run 0xF255 (regs [(0, 0x11), (1, 0x22), (2, 0x33), (3, 0x44)] { start with i := 0x400 }))
      (fun t => t.mem.readBytes 0x400 4 = [0x11, 0x22, 0x33, 0x00] && t.i = 0x400) = true := by decide

theorem test_storeRegs_T42_4 :
    raises (.outOfBounds .mem 4096) 0x200 (run 0xFF55 { start with i := 0xFF1 }) = true := by decide

theorem test_loadRegs_T42_8 :
    goesTo 0x202 .none (run 0xF165 (bytes 0x400 [0xAA, 0xBB, 0xCC] (regs [(2, 0x77)] { start with i := 0x400 })))
      (fun t => t.v = (regs [(0, 0xAA), (1, 0xBB), (2, 0x77)] start).v && t.i = 0x400) = true := by decide

theorem test_loadRegs_T42_10 :
    goesTo 0x202 .none (run 0xFF65 start)
      (fun t => t.v.toList = [0xF0, 0x90, 0x90, 0x90, 0xF0, 0x20, 0x60, 0x20, 0x20, 0x70, 0xF0, 0x10, 0xF0,
        0x80, 0xF0, 0xF0]) = true := by decide

/-! ### Display (T45) -/

theorem test_cls_T45_1 :
    goesTo 0x202 .none (run 0x00E0 (regs [(15, 7)] { start with video := cellsOn [0, 5, 2047] }))
      (fun t => t.video = cellsOn [] && readReg t 15 = 7) = true := by decide

/-- T45.16: a collision. -/
theorem test_drw_T45_16 :
    goesTo 0x202 .displayUpdated
      (run 0xD001 (bytes 0x300 [0xF0] { start with i := 0x300, video := cellsOn [3, 4] }))
      (fun t => t.video = cellsOn [0, 1, 2, 4] && readReg t 15 = 1) = true := by decide

/-- T45.4: the row spills into the next one. -/
theorem test_drw_T45_4 :
    goesTo 0x202 .displayUpdated (run 0xD011 (bytes 0x300 [0xFF] (regs [(0, 0x3C)] { start with i := 0x300 })))
      (fun t => t.video = cellsOn [60, 61, 62, 63, 64, 65, 66, 67] && readReg t 15 = 0) = true := by decide

/-! ### Keys and timers (T47) -/

/-- The key states with only key `k` pressed. -/
def onlyKey (k : Fin 16) : Vector Bool 16 := (Vector.replicate 16 false).set k true

theorem test_skp_T47_1 :
    goesTo 0x204 .none (run 0xE59E (regs [(5, 0x0A)] { start with keys := onlyKey 10 })) (fun _ => true) = true ∧
    goesTo 0x202 .none (run 0xE59E (regs [(5, 0x0A)] start)) (fun _ => true) = true := by decide

theorem test_skp_T47_5 :
    raises (.outOfBounds .key 255) 0x200 (run 0xE59E (regs [(5, 0xFF)] start)) = true := by decide

theorem test_sknp_T47_6 :
    goesTo 0x202 .none (run 0xE5A1 (regs [(5, 0x0A)] { start with keys := onlyKey 10 })) (fun _ => true) = true ∧
    goesTo 0x204 .none (run 0xE5A1 (regs [(5, 0x0A)] start)) (fun _ => true) = true := by decide

theorem test_sknp_T47_8 :
    raises (.outOfBounds .key 26) 0x200 (run 0xE5A1 (regs [(5, 0x1A)] start)) = true := by decide

theorem test_ldVxDT_T47_9 :
    goesTo 0x202 .none (run 0xF207 { start with dt := 0x1E }) (fun t => readReg t 2 = 0x1E) = true := by decide

theorem test_ldDT_T47_11 :
    goesTo 0x202 .none (run 0xF215 (regs [(2, 0x3C)] start)) (fun t => t.dt = 0x3C && t.st = 0) = true := by decide

theorem test_ldST_T47_13 :
    goesTo 0x202 .startBeep (run 0xF218 (regs [(2, 5)] start)) (fun t => t.st = 5) = true ∧
    goesTo 0x202 .none (run 0xF218 (regs [(2, 5)] { start with st := 3 })) (fun t => t.st = 5) = true := by
  decide

theorem test_ldST_T47_15 :
    goesTo 0x202 .stopBeep (run 0xF218 { start with st := 3 }) (fun t => t.st = 0) = true := by decide

theorem test_ldVxK_T47_20 :
    goesTo 0x202 .none (run 0xF30A { start with awaiting := true, lastPress := some 7 })
      (fun t => readReg t 3 = 7 && !t.awaiting && t.lastPress = some 7) = true := by decide

theorem test_ldVxK_T47_21 :
    goesTo 0x200 .none (run 0xF30A { start with lastPress := some 7, keys := onlyKey 7 })
      (fun t => t.awaiting && t.lastPress = none && t.keys = onlyKey 7) = true := by decide

/-! ### Step, halted core, operations (T12, T50 to T52) -/

/-- T50.2: fetch is checked before decode. -/
theorem test_step_T50_2 :
    raises (.outOfBounds .mem 4096) 0xFFF (step (bytes 0xFFF [0xFF] { start with pc := 0xFFF })) = true := by
  decide

theorem test_step_T50_4 :
    raises (.outOfBounds .mem 4350) 0x10FE (step { start with pc := 0x10FE }) = true := by decide

/-- Directly after `Reset` the word at 0 is the font's `F090`, which is no instruction (log 4). -/
theorem test_step_reset : raises (.unimplementedOpcode 0xF090) 0 (step State.reset) = true := by decide

/-- A halted core with `DT = 5` and `ST = 1` (T51). -/
def halted : State := { start with status := .fatal .stackUnderflow, dt := 5, st := 1, pc := 0x208 }

theorem test_halted_T51 :
    [Operation.step, .tick, .setPressed 3 true, .stepWithDecay 2].all (fun op =>
      gives (perform op halted) fun t =>
        { t with output := .nothing } = halted && (t.output = .nothing || t.output = .event .none)) = true := by
  decide

theorem test_reset_leaves_halt :
    gives (step { halted with schedule := [.reset] }) (fun t => t = State.reset) = true := by decide

theorem test_tick_T10 :
    gives (step { start with st := 1, schedule := [.tick] })
      (fun t => t.st = 0 && t.dt = 0 && t.output = .event .stopBeep) = true ∧
    gives (step { start with schedule := [.tick] })
      (fun t => t.st = 0 && t.dt = 0 && t.output = .event .none) = true := by decide

/-- T52: the `StopBeep` of the decay is dropped. -/
theorem test_stepWithDecay_T52 :
    gives (perform (.stepWithDecay 1) (bytes 0x200 [0xF0, 0x18] (regs [(0, 1)] start)))
      (fun t => t.st = 0 && t.output = .event .startBeep) = true := by decide

theorem test_setPressed_T8 :
    gives (step { start with schedule := [.setPressed 7 true] })
      (fun t => t.keys = onlyKey 7 && t.lastPress = some 7 && t.output = .nothing) = true := by decide

theorem test_loadProgram_T3 :
    gives (step { State.reset with schedule := [.loadProgram [0xA2, 0x04, 0xD0, 0x01, 0xF0]] })
      (fun t => t.pc = 0x200 && t.output = .load .ok &&
        t.mem.readBytes 0x200 6 = [0xA2, 0x04, 0xD0, 0x01, 0xF0, 0x00]) = true := by decide

theorem test_loadProgram_T12 :
    perform (.loadProgram (List.replicate 3585 0)) State.reset =
      .next { State.reset with output := .load (.loadError 3585) } := by
  have h : justReset State.reset = true := by decide
  have hl : loadResult (List.replicate 3585 0) = .loadError 3585 := by
    rw [loadResult, test_rom_3585_illFormed, List.length_replicate]; rfl
  rw [perform, loadProgram, hl, h]
  rfl

/-- R192, R200: the two host calls the spec refuses. -/
theorem test_refused_calls :
    perform (.setPressed 16 true) start = .refused (.keyOutsideInterface 16) ∧
    perform (.loadProgram []) start = .refused .loadNotAfterReset := by
  have h : justReset start = false := by decide
  have hs : start.status = .running := rfl
  exact ⟨rfl, by simp [perform, loadProgram, hs, h]⟩

theorem test_readStatus :
    gives (perform .readStatus halted) (fun t => t.output = .status (.fatal .stackUnderflow)) = true := by decide

/-- The default font is what an unlisted address reads as, so reset memory lists nothing (R23, log 1). -/
theorem test_fontMemory_default : fontMemory Config.fontDefault = [] := by decide

/-- Bytes 0x32 to 0x36 are glyph A (95_test_vectors.md P3). -/
theorem test_font_glyph_A : State.reset.mem.readBytes 0x32 5 = [0xF0, 0x90, 0xF0, 0x90, 0x90] := by decide

/-! ### Witnesses: states and operands that meet the hypotheses of the statements together -/

theorem witness_EncodeOfDecode : decode 0x8F0E = .ok (.shl 15 0) := by decide

/-- Each clause at a boundary, beside an implemented neighbour. -/
theorem witness_UnimplementedWordsExactly :
    [0x00DF, 0x00E1, 0x00ED, 0x00EF, 0x0FFF, 0x5001, 0x500F, 0x9001, 0x900F, 0x8008, 0x800D, 0x800F, 0xE09D,
      0xE09F, 0xE0A0, 0xE0A2, 0xF006, 0xF066].all
      (fun w : Word => decode w = .error (.unimplemented w)) = true ∧
    [0x00E0, 0x00EE, 0x1000, 0x5000, 0x9000, 0x8007, 0x800E, 0xE09E, 0xE0A1, 0xF007, 0xF065].all
      (fun w : Word => decode w = .ok (((decode w).toOption).getD .cls)) = true := by decide

/-- The last address a word can be fetched from. -/
def atLastWord : State := bytes 0xFFE [0x00, 0xE0] { start with pc := 0xFFE }

/-- An operation at the head of a schedule comes next. -/
theorem comesNext_head (op : Operation) (rest : List Operation) (s : State) :
    ComesNext op { s with schedule := op :: rest } { s with schedule := rest } :=
  .inl ⟨rest, rfl, rfl⟩

/-- With an empty schedule and an environment of `Step`s, `Step` comes next. -/
theorem comesNext_onlySteps {s : State} (h : s.schedule = []) (he : s.environment = .onlySteps) :
    ComesNext .step s s :=
  .inr (.inl ⟨h, he, rfl, rfl⟩)

/-- With an empty schedule and a free environment, its next free value comes next, whatever it is. -/
theorem comesNext_free :
    ComesNext (Config.operation 3) { start with environment := .free 3 } { start with environment := .free 4 } :=
  .inr (.inr ⟨3, rfl, rfl, rfl, rfl⟩)

/-- A schedule of two, and a free environment (after no operation: its operations have no value to test). -/
theorem witness_EveryOrderOfOperationsIsARun :
    atLastWord.schedule = [] ∧ (∃ t, performAll [.tick, .step] atLastWord = .next t ∧ t.pc = 0x1000) ∧
    { start with environment := .free 3 }.schedule = [] ∧
    { start with environment := .free 3 }.environment = .free 3 ∧
    performAll ((List.range' 3 0).map Config.operation) { start with environment := .free 3 } =
      .next { start with environment := .free 3 } :=
  ⟨rfl, (gives_next (p := fun t => t.pc = 0x1000) (by decide)).imp fun _ h => ⟨h.1, of_decide_eq_true h.2⟩,
    rfl, rfl, rfl⟩

theorem witness_StepRunsDecodedInstruction :
    atLastWord.Running ∧ ComesNext .step atLastWord atLastWord ∧
    ComesNext .step { atLastWord with schedule := [.step, .tick] } { atLastWord with schedule := [.tick] } ∧
    atLastWord.pc.toNat + 1 ≤ 4095 ∧
    (0x00E0 : Word).toNat =
      (atLastWord.mem.read atLastWord.pc.toNat).toNat * 256 +
        (atLastWord.mem.read (atLastWord.pc.toNat + 1)).toNat ∧
    decode 0x00E0 = .ok .cls :=
  ⟨rfl, comesNext_onlySteps rfl rfl, comesNext_head _ _ _, by decide, by decide, by decide⟩

theorem witness_FetchOutsideMemoryIsFatal :
    { start with pc := 0xFFF }.Running ∧
    ComesNext .step { start with pc := 0xFFF } { start with pc := 0xFFF } ∧
    ComesNext .step { start with pc := 0xFFF, schedule := [.step] } { start with pc := 0xFFF } ∧
    { start with pc := 0xFFF }.pc.toNat + 1 > 4095 :=
  ⟨rfl, comesNext_onlySteps rfl rfl, comesNext_head _ _ { start with pc := 0xFFF }, by decide⟩

theorem witness_UnimplementedWordIsFatal :
    State.reset.Running ∧ ComesNext .step State.reset State.reset ∧
    ComesNext .step { State.reset with schedule := [.step] } State.reset ∧ State.reset.pc.toNat + 1 ≤ 4095 ∧
    (0xF090 : Word).toNat =
      (State.reset.mem.read State.reset.pc.toNat).toNat * 256 +
        (State.reset.mem.read (State.reset.pc.toNat + 1)).toNat ∧
    ∀ i, decode 0xF090 ≠ .ok i := by
  have h : decode 0xF090 = .error (.unimplemented 0xF090) := by decide
  exact ⟨rfl, comesNext_onlySteps rfl rfl, comesNext_head _ _ State.reset, by decide, by decide,
    fun i hi => by rw [h] at hi; cases hi⟩

theorem witness_HaltedCoreChangesNothing :
    halted.Halted ∧ (Operation.setPressed 15 true) ≠ .reset ∧
    (∀ k p, Operation.setPressed 15 true = .setPressed k p → k < 16) ∧
    Operation.stepWithDecay 3 ≠ .reset ∧ Operation.loadProgram [0x00] ≠ .reset := by
  refine ⟨⟨_, rfl⟩, by decide, ?_, by decide, by decide⟩
  rintro k p h
  cases h
  decide

theorem witness_FatalConditionsArePrecise :
    start.Running ∧ ∃ t, exec .ret start = .next t ∧ ¬ t.Running :=
  ⟨rfl, _, rfl, by simp [withFatal]⟩

/-- Each listed condition at the last value that does not raise it and the first that does. -/
theorem witness_FatalExactlyWhenListed :
    gives (exec (.ldB 0) { start with i := 0xFFD }) (fun t => t.Running) = true ∧
    gives (exec (.ldB 0) { start with i := 0xFFE }) (fun t => ¬ t.Running) = true ∧
    gives (exec (.storeRegs 15) { start with i := 0xFF0 }) (fun t => t.Running) = true ∧
    gives (exec (.storeRegs 15) { start with i := 0xFF1 }) (fun t => ¬ t.Running) = true ∧
    gives (exec (.loadRegs 0) { start with i := 0xFFF }) (fun t => t.Running) = true ∧
    gives (exec (.loadRegs 0) { start with i := 0x1000 }) (fun t => ¬ t.Running) = true ∧
    gives (exec (.skp 0) (regs [(0, 15)] start)) (fun t => t.Running) = true ∧
    gives (exec (.skp 0) (regs [(0, 16)] start)) (fun t => ¬ t.Running) = true ∧
    gives (exec (.sknp 0) (regs [(0, 15)] start)) (fun t => t.Running) = true ∧
    gives (exec (.sknp 0) (regs [(0, 16)] start)) (fun t => ¬ t.Running) = true ∧
    gives (exec (.drw 0 1 1) (regs [(0, 0x38), (1, 0x1F)] start)) (fun t => t.Running) = true ∧
    gives (exec (.drw 0 1 1) (regs [(0, 0x39), (1, 0x1F)] start)) (fun t => ¬ t.Running) = true ∧
    gives (exec (.drw 0 0 0) { start with i := 0xFFFF }) (fun t => t.Running) = true ∧
    gives (exec (.drw 0 0 1) { start with i := 0x1000 }) (fun t => ¬ t.Running) = true := by decide

theorem witness_RetPopsReturnAddress :
    { start with stack := [0x1001] }.stack = 0x1001 :: [] ∧ start.stack = [] := ⟨rfl, rfl⟩

theorem witness_RetOnEmptyStackIsFatal : start.stack = [] := rfl

/-- The clauses `x ≠ 15` and `x = 15` of the arithmetic and shift statements. -/
theorem witness_ArithmeticClauses : (14 : Nibble) ≠ 15 ∧ (15 : Nibble) = 15 := by decide

theorem witness_StoreDecimalDigits :
    { start with i := 0xFFD }.mem.wf = true ∧ { start with i := 0xFFD }.i.toNat + 2 ≤ 4095 := by decide

theorem witness_StoreRegisters :
    { start with i := 0xFF0 }.mem.wf = true ∧
    { start with i := 0xFF0 }.i.toNat + (15 : Nibble).toNat ≤ 4095 := by decide

theorem witness_LoadRegisters :
    { start with i := 0xFF0 }.i.toNat + (15 : Nibble).toNat ≤ 4095 ∧
    { start with i := 0xFFF }.i.toNat + (0 : Nibble).toNat ≤ 4095 := by decide

theorem witness_StoreThenLoadRestores :
    { start with i := 0xFFD }.mem.wf = true ∧ { start with i := 0xFFD }.i.toNat + (2 : Nibble).toNat ≤ 4095 ∧
    (2 : Nibble).toNat ≤ (2 : Nibble).toNat ∧ (2 : Nibble).toNat < (3 : Nibble).toNat := by decide

theorem witness_DataAccessOutsideMemoryIsFatal :
    { start with i := 0xFFE }.i.toNat + 2 > 4095 ∧
    { start with i := 0xFF1 }.i.toNat + (15 : Nibble).toNat > 4095 := by decide

/-- One row, a 1 bit at its right end, drawn at the last place that fits, from the last byte of memory. -/
def lastDraw : State := bytes 0xFFF [0x01] (regs [(0, 0x38), (1, 0x1F)] { start with i := 0xFFF })

theorem witness_DrawSprite :
    DrawFits lastDraw ((readReg lastDraw 0).toNat % 64) ((readReg lastDraw 1).toNat % 32) (1 : Nibble).toNat ∧
    SpriteCovers lastDraw 56 31 1 2047 ∧
    DrawFits { start with i := 0xFFFF } 63 31 (0 : Nibble).toNat :=
  ⟨by decide, ⟨0, 7, by decide, by decide, rfl, by decide⟩, by decide⟩

/-- With cell 2047 on before, that draw collides; with it off, it does not (the two clauses about `VF`). -/
theorem witness_DrawSprite_collision :
    gives (exec (.drw 0 1 1) { lastDraw with video := cellsOn [2047] })
      (fun t => (cellsOn [2047]).cell 2047 && !t.video.cell 2047 && readReg t 15 = 1) = true ∧
    gives (exec (.drw 0 1 1) lastDraw) (fun t => t.video.cell 2047 && readReg t 15 = 0) = true := by decide

theorem witness_DrawOutsideIsFatal :
    1 ≤ (1 : Nibble).toNat ∧ { start with i := 0x1000 }.i.toNat + (1 : Nibble).toNat - 1 > 4095 ∧
    (regs [(0, 0x39), (1, 0x1F)] { start with i := 0xFFF }).i.toNat + (1 : Nibble).toNat - 1 ≤ 4095 ∧
    64 * ((readReg (regs [(0, 0x39), (1, 0x1F)] start) 1).toNat % 32 + (1 : Nibble).toNat - 1) +
      (readReg (regs [(0, 0x39), (1, 0x1F)] start) 0).toNat % 64 + 7 > 2047 := by decide

theorem witness_DrawTwiceRestores :
    (0 : Nibble) ≠ 15 ∧ (1 : Nibble) ≠ 15 ∧
    DrawFits lastDraw ((readReg lastDraw 0).toNat % 64) ((readReg lastDraw 1).toNat % 32) (1 : Nibble).toNat ∧
    (∀ k < 2048, SpriteCovers lastDraw 56 31 1 k → lastDraw.video.cell k = false) ∧
    ∃ k, SpriteCovers lastDraw 56 31 1 k :=
  ⟨by decide, by decide, by decide,
    fun k _ _ => Video.cell_blank k,
    2047, 0, 7, by decide, by decide, rfl, by decide⟩

theorem witness_SkipsOnKey : (readReg (regs [(0, 15)] start) 0).toNat < 16 := by decide

theorem witness_KeyIndexAboveFifteenIsFatal : (readReg (regs [(0, 16)] start) 0).toNat > 15 := by decide

theorem witness_KeyWaitHoldsPc :
    start.awaiting = false ∧ { start with awaiting := true }.awaiting = true ∧
    { start with awaiting := true }.lastPress = none := by decide

theorem witness_KeyWaitDeliversKey :
    { start with awaiting := true, lastPress := some 0 }.awaiting = true ∧
    { start with awaiting := true, lastPress := some 0 }.lastPress = some 0 := by decide

theorem witness_KeyWaitProtocol : start.Running ∧ start.awaiting = false ∧ 15 < 16 := by decide

theorem witness_TickDecaysTimers :
    { start with schedule := [.tick], st := 1 }.Running ∧
    { start with schedule := [.tick], st := 1 }.schedule = .tick :: [] ∧
    { halted with schedule := [.tick] }.Halted ∧ { halted with schedule := [.tick] }.schedule = .tick :: [] :=
  ⟨rfl, rfl, ⟨_, rfl⟩, rfl⟩

theorem witness_TicksCountDown : { start with st := 3 }.Running := rfl

/-- A `Step` that leaves the core running, a fatal one, and one on a halted core. -/
theorem witness_StepWithDecayIsStepThenTicks :
    (∃ t, coreStep atLastWord = .next t ∧ t.Running) ∧
    (∃ t, coreStep { start with pc := 0xFFF } = .next t ∧ ¬ t.Running) ∧
    ∃ t, coreStep halted = .next t ∧ ¬ t.Running :=
  ⟨(gives_next (p := fun t => t.Running) (by decide)).imp fun _ h => ⟨h.1, of_decide_eq_true h.2⟩,
    (gives_next (p := fun t => ¬ t.Running) (by decide)).imp fun _ h => ⟨h.1, of_decide_eq_true h.2⟩,
    (gives_next (p := fun t => ¬ t.Running) (by decide)).imp fun _ h => ⟨h.1, of_decide_eq_true h.2⟩⟩

theorem witness_SetPressedRecordsKey : 15 < 16 ∧ start.Running ∧ 14 < 16 ∧ (14 : Nat) ≠ 15 ∧ 16 > 15 := by decide

theorem witness_LoadProgramAfterReset :
    State.reset.Running ∧ justReset State.reset = true ∧ (List.replicate 3584 (0 : Byte)).length ≤ 3584 ∧
    (List.replicate 3585 (0 : Byte)).length > 3584 ∧ start.Running ∧ justReset start = false :=
  ⟨rfl, by decide, by rw [List.length_replicate], by rw [List.length_replicate]; decide, rfl, by decide⟩

theorem witness_HostReadsShowVideoAndStatus : 63 < 64 ∧ 31 < 32 ∧ 64 * 31 + 63 < 2048 := by decide

theorem witness_InstructionsWriteOnlyTheirState :
    ∃ t, exec (.loadRegs 14) start = .next t ∧ (Instr.loadRegs 14).writesReg 15 = false ∧
      (Instr.loadRegs 14).writesReg 14 = true :=
  ⟨_, rfl, by decide, by decide⟩

theorem witness_EventOfEveryInstruction :
    start.Running ∧ (∃ t, exec (.ldST 2) start = .next t ∧ t.Running) ∧
    ∃ t, exec .ret start = .next t ∧ ¬ t.Running :=
  ⟨rfl, ⟨_, rfl, rfl⟩, _, rfl, by simp [withFatal]⟩

theorem witness_BeepEventsAreTheEdges :
    start.Running ∧ ∃ t, exec (.ldST 2) (regs [(2, 1)] start) = .next t ∧ t.st ≠ 0 :=
  ⟨rfl, _, rfl, by decide⟩

/-- `1200` at `0x200` (T20.5). -/
def finished : State := bytes 0x200 [0x12, 0x00] start

theorem witness_FinishedProgramStaysFinished :
    finished.Finished ∧ ComesNext .step finished finished ∧
    { finished with schedule := [.step, .tick] }.Finished ∧
    ComesNext .step { finished with schedule := [.step, .tick] } { finished with schedule := [.tick] } :=
  ⟨⟨rfl, rfl, by decide⟩, comesNext_onlySteps rfl rfl, ⟨rfl, rfl, by decide⟩, comesNext_head _ _ _⟩

/-- A state with an armed key wait at an `Fx0A`, a return address at its bound and memory listed. -/
def waiting : State :=
  bytes 0x200 [0xF3, 0x0A] { start with awaiting := true, stack := [0x1000] }

theorem waiting_pcBounded : waiting.PcBounded := by
  refine ⟨by decide, fun a ha => ?_⟩
  have : a = 0x1000 := by simpa [waiting, bytes] using ha
  rw [this]
  decide

theorem waiting_inv : waiting.Inv where
  memWf := by decide
  pcBounded := waiting_pcBounded
  waitHeld := fun _ _ => by decide

theorem witness_StepKeepsMachineInvariant :
    waiting.Inv ∧ ∃ t, step waiting = .next t ∧ t.pc = 0x200 :=
  ⟨waiting_inv,
    (gives_next (p := fun t => t.pc = 0x200) (by decide)).imp fun _ h => ⟨h.1, of_decide_eq_true h.2⟩⟩

/-- The two refused calls, and the allowed ones beside them. -/
theorem witness_EveryAllowedOperationAnswersNext :
    ComesNext (.setPressed 16 true) { start with schedule := [.setPressed 16 true] } start ∧ 15 < 16 ∧
    ComesNext (.loadProgram [0x00]) { start with schedule := [.loadProgram [0x00]] } start ∧
    start.Running ∧ justReset start = false ∧
    ComesNext (.setPressed 15 true) { start with schedule := [.setPressed 15 true] } start ∧ 15 < 16 ∧
    ComesNext (.loadProgram [0x00]) { State.reset with schedule := [.loadProgram [0x00]] } State.reset ∧
    justReset State.reset = true ∧
    ComesNext (.loadProgram [0x00]) { halted with schedule := [.loadProgram [0x00]] } halted ∧ halted.Halted :=
  ⟨comesNext_head _ _ start, by decide, comesNext_head _ _ start, rfl, by decide, comesNext_head _ _ start,
    by decide, comesNext_head _ _ State.reset, by decide, comesNext_head _ _ halted, _, rfl⟩

theorem witness_PlacedWordIsNextInstruction :
    State.reset.mem.wf = true ∧ decodeTableWord 16 0x00E0 = some .cls ∧
    { start with pc := 0xFFFF }.mem.wf = true := by decide

end Sys2Proof.Tests
end

section
/-! PROOFS. Control flow (spec 40_control_flow.md): what jump, call, return and the four skips on
registers do, and the obligations about them. -/

namespace Sys2Proof.Machine

/-! ### Words of a row of the opcode map -/

/-- The words that match row `k` of the opcode map decode to what that row builds (30_encoding.md R64). -/
theorem encodes_of_row (k : Nat) {mask pattern : Word} {build : Word → Instr}
    (hk : opcodeRows[k]? = some ⟨mask, pattern, build⟩) : Encodes mask pattern build := fun op hop =>
  decode_of_selects (r := ⟨mask, pattern, build⟩) (List.mem_of_getElem? hk)
    (by simpa [OpcodeRow.selects] using hop)

/-! ### Jump, call and return -/

@[simp] theorem toNat_zext12 (nnn : Addr12) : (zext12 nnn).toNat = nnn.toNat :=
  BitVec.toNat_setWidth_of_le (by decide)

theorem exec_jp (nnn : Addr12) (s : State) :
    exec (.jp nnn) s = .next (finish (zext12 nnn) .none s) := rfl

theorem exec_call (nnn : Addr12) (s : State) :
    exec (.call nnn) s =
      .next (finish (zext12 nnn) .none { s with stack := (s.pc + 2) :: s.stack }) := rfl

theorem exec_ret_of_stack_cons {s : State} {a : Word} {rest : List Word} (h : s.stack = a :: rest) :
    exec .ret s = .next (finish a .none { s with stack := rest }) := by
  simp only [exec, execRet, h, jumpTo_eq]

/-! ### Skips -/

/-- A skip whose test decides `p`: only `PC` and the output change (40_control_flow.md R80). -/
theorem skipIf_eq_ite {c : Bool} {p : Prop} [Decidable p] (hc : c = true ↔ p) (s : State) :
    skipIf c s =
      .next { s with pc := if p then s.pc + 4 else s.pc + 2, output := .event .none } := by
  by_cases hp : p
  · rw [hc.mpr hp, if_pos hp]
    rfl
  · rw [Bool.eq_false_iff.mpr (mt hc.mp hp), if_neg hp]
    rfl

theorem exec_seImm (x : Nibble) (nn : Byte) (s : State) :
    exec (.seImm x nn) s = skipIf (readReg s x == nn) s := rfl

theorem exec_sneImm (x : Nibble) (nn : Byte) (s : State) :
    exec (.sneImm x nn) s = skipIf (readReg s x != nn) s := rfl

theorem exec_seReg (x y : Nibble) (s : State) :
    exec (.seReg x y) s = skipIf (readReg s x == readReg s y) s := rfl

theorem exec_sneReg (x y : Nibble) (s : State) :
    exec (.sneReg x y) s = skipIf (readReg s x != readReg s y) s := rfl

/-! ### The obligations -/

/-- Settles O14: the next state is `finish` at the zero-extended `nnn`. -/
theorem jumpSetsPc : Obligations.JumpSetsPc :=
  ⟨encodes_of_row 2 rfl, fun nnn s => ⟨_, exec_jp nnn s, toNat_zext12 nnn, rfl⟩⟩

/-- Settles O15: the return address is on top of the stack, so the return pops it. -/
theorem callPushesAndJumps : Obligations.CallPushesAndJumps :=
  ⟨encodes_of_row 3 rfl, fun nnn s =>
    ⟨_, exec_call nnn s, toNat_zext12 nnn, rfl, exec_ret_of_stack_cons rfl⟩⟩

/-- Settles O17: both are skips, on the test for equality and on its negation. -/
theorem skipsOnImmediate : Obligations.SkipsOnImmediate := by
  refine ⟨encodes_of_row 4 rfl, encodes_of_row 5 rfl, fun x nn s => ⟨?_, ?_⟩⟩
  · rw [exec_seImm, skipIf_eq_ite beq_iff_eq]
  · rw [exec_sneImm, skipIf_eq_ite bne_iff_ne]

/-- Settles O18: both are skips, on the test for equality and on its negation. -/
theorem skipsOnRegister : Obligations.SkipsOnRegister := by
  refine ⟨encodes_of_row 6 rfl, encodes_of_row 18 rfl, fun x y s => ⟨?_, ?_⟩⟩
  · rw [exec_seReg, skipIf_eq_ite beq_iff_eq]
  · rw [exec_sneReg, skipIf_eq_ite bne_iff_ne]

end Sys2Proof.Machine
end

section
/-! PROOFS. Register loads and the immediate add (spec 41_load_alu.md R101 to R103): each is one write of
`Vx` followed by the default end, and the obligations about them. -/

namespace Sys2Proof.Machine

/-! ### One register write, then the default end -/

/-- An instruction that writes `b` to `Vx` and ends by default: every other register is kept, and nothing
but registers, `PC` and the output changes (10_state.md R14). -/
theorem advance_writeReg (x : Nibble) (b : Byte) (s : State) :
    ∃ t, advance .none (writeReg x b s) = .next t ∧
      readReg t x = b ∧ RegsKeptExcept (· = x) s t ∧ AdvancesQuietly s t ∧ OnlyRegs s t :=
  ⟨_, advance_eq _ _, readReg_writeReg_same s x b, fun _ hz => readReg_writeReg_other s b hz,
    ⟨rfl, rfl⟩, rfl⟩

theorem exec_ldImm (x : Nibble) (nn : Byte) (s : State) :
    exec (.ldImm x nn) s = advance .none (writeReg x nn s) := rfl

theorem exec_addImm (x : Nibble) (nn : Byte) (s : State) :
    exec (.addImm x nn) s = advance .none (writeReg x (readReg s x + nn) s) := rfl

theorem exec_ldReg (x y : Nibble) (s : State) :
    exec (.ldReg x y) s = advance .none (writeReg x (readReg s y) s) := rfl

/-! ### The obligations -/

/-- Settles O19: one write of `nn`, then the default end. -/
theorem loadImmediate : Obligations.LoadImmediate := by
  refine ⟨encodes_of_row 7 rfl, fun x nn s => ?_⟩
  rw [exec_ldImm]
  exact advance_writeReg x nn s

/-- Settles O20: one write of the byte sum, whose value is the sum modulo 256, then the default end. -/
theorem addImmediateWraps : Obligations.AddImmediateWraps := by
  refine ⟨encodes_of_row 8 rfl, fun x nn s => ?_⟩
  obtain ⟨t, ht, hx, hframe⟩ := advance_writeReg x (readReg s x + nn) s
  refine ⟨t, (exec_addImm x nn s).trans ht, ?_, hframe⟩
  rw [hx, BitVec.toNat_add]

/-- Settles O21: one write of the old `Vy`, then the default end. -/
theorem loadRegister : Obligations.LoadRegister := by
  refine ⟨encodes_of_row 9 rfl, fun x y s => ?_⟩
  rw [exec_ldReg]
  exact advance_writeReg x (readReg s y) s

end Sys2Proof.Machine
end

section
/-! PROOFS. Writes of the index register (spec 42_index_memory.md R121 to R123): each is one new value of
`I` followed by the default end, and the obligation about them. -/

namespace Sys2Proof.Machine

/-! ### Values written to `I` -/

@[simp] theorem toNat_zext8 (b : Byte) : (zext8 b).toNat = b.toNat :=
  BitVec.toNat_setWidth_of_le (by decide)

/-- The glyph address of any byte is its integer value: `5 * 255` fits in a word (R123). -/
@[simp] theorem toNat_glyphAddress (d : Byte) : (glyphAddress d).toNat = 5 * d.toNat := by
  have hd : d.toNat < 256 := d.isLt
  have h5 : (5 : Word).toNat = 5 := rfl
  rw [glyphAddress, BitVec.toNat_mul, h5, toNat_zext8, Nat.mod_eq_of_lt (by omega)]

/-! ### One write of `I`, then the default end -/

/-- An instruction that writes `a` to `I` and ends by default: nothing but `I`, `PC` and the output
changes (10_state.md R14). -/
theorem advance_writeI {a : Word} {n : Nat} (ha : a.toNat = n) (s : State) :
    ∃ t, advance .none { s with i := a } = .next t ∧ t.i.toNat = n ∧
      t = { s with i := t.i, pc := s.pc + 2, output := .event .none } :=
  ⟨_, advance_eq _ _, ha, rfl⟩

theorem exec_ldI (nnn : Addr12) (s : State) :
    exec (.ldI nnn) s = advance .none { s with i := zext12 nnn } := rfl

theorem exec_addI (x : Nibble) (s : State) :
    exec (.addI x) s = advance .none { s with i := s.i + zext8 (readReg s x) } := rfl

theorem exec_ldF (x : Nibble) (s : State) :
    exec (.ldF x) s = advance .none { s with i := glyphAddress (readReg s x) } := rfl

/-! ### The obligation -/

/-- Settles O28: one write of `I` each, of the immediate, of the word sum (which is the sum modulo 65536)
and of the glyph address, then the default end. -/
theorem indexRegisterWrites : Obligations.IndexRegisterWrites := by
  refine ⟨encodes_of_row 19 rfl, encodes_of_row 29 rfl, encodes_of_row 30 rfl, fun nnn s => ?_,
    fun x s => ⟨?_, ?_⟩⟩
  · rw [exec_ldI]
    exact advance_writeI (toNat_zext12 nnn) s
  · rw [exec_addI]
    exact advance_writeI (by rw [BitVec.toNat_add, toNat_zext8]) s
  · rw [exec_ldF]
    exact advance_writeI (toNat_glyphAddress (readReg s x)) s

end Sys2Proof.Machine
end

section
/-! PROOFS. The delay timer (spec 44_keys_timers.md R153, R155): the two instructions that read and write
`DT`, each followed by the default end, and the obligation about them. -/

namespace Sys2Proof.Machine

theorem exec_ldVxDT (x : Nibble) (s : State) :
    exec (.ldVxDT x) s = advance .none (writeReg x s.dt s) := rfl

theorem exec_ldDT (x : Nibble) (s : State) :
    exec (.ldDT x) s = advance .none { s with dt := readReg s x } := rfl

/-- Settles O40: `Fx07` is one write of `DT` to `Vx`, `Fx15` one new value of `DT`, each before the default
end. -/
theorem delayTimerAccess : Obligations.DelayTimerAccess := by
  refine ⟨encodes_of_row 25 rfl, encodes_of_row 27 rfl, fun x s => ⟨?_, ?_⟩⟩
  · rw [exec_ldVxDT]
    exact advance_writeReg x s.dt s
  · rw [exec_ldDT, advance_eq]
    rfl

end Sys2Proof.Machine
end

section
/-! PROOFS. Decoding and encoding (spec 30_encoding.md): the fields of each format, the round trips, the
words that are no instruction, and the obligations about them. -/

namespace Sys2Proof

open Sys2Proof.Machine Sys2Proof.Laws

/-! ### The fields of a word of a format (R61, R62) -/

@[simp] theorem fieldNNN_formatNNN (n3 : Nibble) (nnn : Addr12) : fieldNNN (formatNNN n3 nnn) = nnn := by
  ext i hi
  interval_cases i <;> simp [fieldNNN, formatNNN]

@[simp] theorem fieldX_formatXNN (n3 x : Nibble) (nn : Byte) : fieldX (formatXNN n3 x nn) = x := by
  ext i hi
  interval_cases i <;> simp [fieldX, formatXNN]

@[simp] theorem fieldNN_formatXNN (n3 x : Nibble) (nn : Byte) : fieldNN (formatXNN n3 x nn) = nn := by
  ext i hi
  interval_cases i <;> simp [fieldNN, formatXNN]

@[simp] theorem fieldX_formatXYN (n3 x y n : Nibble) : fieldX (formatXYN n3 x y n) = x := by
  ext i hi
  interval_cases i <;> simp [fieldX, formatXYN]

@[simp] theorem fieldY_formatXYN (n3 x y n : Nibble) : fieldY (formatXYN n3 x y n) = y := by
  ext i hi
  interval_cases i <;> simp [fieldY, formatXYN]

@[simp] theorem fieldN_formatXYN (n3 x y n : Nibble) : fieldN (formatXYN n3 x y n) = n := by
  ext i hi
  interval_cases i <;> simp [fieldN, formatXYN]

/-! ### A word is made of what its mask keeps and of its fields -/

theorem formatNNN_fieldNNN (n3 : Nibble) {op : Word} (h : op &&& 0xF000 = formatNNN n3 0) :
    formatNNN n3 (fieldNNN op) = op := by
  have hop : formatNNN n3 (fieldNNN op) = formatNNN n3 0 ||| (fieldNNN op).setWidth 16 := by
    simp [formatNNN]
  rw [hop, ← h]
  ext i hi
  interval_cases i <;> simp [fieldNNN]

theorem formatXNN_fields (n3 : Nibble) {op : Word} (h : op &&& 0xF000 = formatXNN n3 0 0) :
    formatXNN n3 (fieldX op) (fieldNN op) = op := by
  have hop : formatXNN n3 (fieldX op) (fieldNN op) =
      formatXNN n3 0 0 ||| (fieldX op).setWidth 16 <<< 8 ||| (fieldNN op).setWidth 16 := by
    simp [formatXNN]
  rw [hop, ← h]
  ext i hi
  interval_cases i <;> simp [fieldX, fieldNN]

theorem formatXNN_fieldX (n3 : Nibble) (low : Byte) {op : Word} (h : op &&& 0xF0FF = formatXNN n3 0 low) :
    formatXNN n3 (fieldX op) low = op := by
  have hop : formatXNN n3 (fieldX op) low = formatXNN n3 0 low ||| (fieldX op).setWidth 16 <<< 8 := by
    simp only [formatXNN, BitVec.ofNat_eq_ofNat, BitVec.setWidth_zero, BitVec.zero_shiftLeft, BitVec.or_zero]
    rw [BitVec.or_comm, ← BitVec.or_assoc, BitVec.or_comm (BitVec.setWidth 16 low)]
  rw [hop, ← h]
  ext i hi
  interval_cases i <;> simp [fieldX]

theorem formatXYN_fieldsXY (n3 n0 : Nibble) {op : Word} (h : op &&& 0xF00F = formatXYN n3 0 0 n0) :
    formatXYN n3 (fieldX op) (fieldY op) n0 = op := by
  have hop : formatXYN n3 (fieldX op) (fieldY op) n0 =
      formatXYN n3 0 0 n0 ||| (fieldX op).setWidth 16 <<< 8 ||| (fieldY op).setWidth 16 <<< 4 := by
    simp only [formatXYN, BitVec.ofNat_eq_ofNat, BitVec.setWidth_zero, BitVec.zero_shiftLeft, BitVec.or_zero]
    rw [BitVec.or_comm, ← BitVec.or_assoc, ← BitVec.or_assoc, BitVec.or_comm (BitVec.setWidth 16 n0)]
  rw [hop, ← h]
  ext i hi
  interval_cases i <;> simp [fieldX, fieldY]

theorem formatXYN_fields (n3 : Nibble) {op : Word} (h : op &&& 0xF000 = formatXYN n3 0 0 0) :
    formatXYN n3 (fieldX op) (fieldY op) (fieldN op) = op := by
  have hop : formatXYN n3 (fieldX op) (fieldY op) (fieldN op) =
      formatXYN n3 0 0 0 ||| (fieldX op).setWidth 16 <<< 8 ||| (fieldY op).setWidth 16 <<< 4 |||
        (fieldN op).setWidth 16 := by
    simp [formatXYN]
  rw [hop, ← h]
  ext i hi
  interval_cases i <;> simp [fieldX, fieldY, fieldN]

theorem pattern_eq_of_full_mask {pattern op : Word} (h : op &&& 0xFFFF = pattern) : pattern = op := by
  rw [← h]
  exact BitVec.and_allOnes

/-! ### What a mask keeps, as numbers -/

/-- What a mask of the opcode nibble and the low `k` bits keeps, as a number. -/
theorem toNat_and_mask (op : Word) {k : Nat} {mask : Word} (hk : k ≤ 12)
    (hm : mask = 0xF000 ||| BitVec.ofNat 16 (2 ^ k - 1)) :
    (op &&& mask).toNat = op.toNat / 4096 * 4096 + op.toNat % 2 ^ k := by
  have hhigh : (op >>> 12 <<< 12).toNat = (op.toNat / 4096) <<< 12 := by
    have hop : op.toNat < 65536 := op.isLt
    rw [BitVec.toNat_shiftLeft, BitVec.toNat_ushiftRight, Nat.shiftRight_eq_div_pow, Nat.shiftLeft_eq]
    omega
  have hpow : 2 ^ k ≤ 4096 := Nat.pow_le_pow_right (by decide) hk
  have hlow : op.toNat % 2 ^ k < 2 ^ 12 := (Nat.mod_lt _ (by positivity)).trans_le hpow
  have hsplit : op &&& mask = op >>> 12 <<< 12 ||| (op &&& BitVec.ofNat 16 (2 ^ k - 1)) := by
    rw [hm]
    ext i hi
    interval_cases i <;> simp +contextual
  rw [hsplit, BitVec.toNat_or, BitVec.toNat_and, BitVec.toNat_ofNat, Nat.mod_eq_of_lt (by omega),
    Nat.and_two_pow_sub_one_eq_mod, hhigh,
    ← Nat.shiftLeft_add_eq_or_of_lt hlow, Nat.shiftLeft_eq]

/-- A row whose mask keeps the opcode nibble and the low `k` bits selects a word by these two numbers. -/
theorem and_mask_eq_iff (op pattern : Word) {k : Nat} {mask : Word} (hk : k ≤ 12)
    (hm : mask = 0xF000 ||| BitVec.ofNat 16 (2 ^ k - 1)) :
    op &&& mask = pattern ↔
      op.toNat / 4096 = pattern.toNat / 4096 ∧ op.toNat % 2 ^ k = pattern.toNat % 4096 := by
  have hpow : 2 ^ k ≤ 4096 := Nat.pow_le_pow_right (by decide) hk
  have hlow : op.toNat % 2 ^ k < 2 ^ k := Nat.mod_lt _ (by positivity)
  rw [BitVec.toNat_eq, toNat_and_mask op hk hm]
  omega

theorem decode_eq_unimplemented_iff (op : Word) :
    decode op = .error (.unimplemented op) ↔ ∀ r ∈ opcodeRows, r.selects op = false := by
  obtain ⟨r, hr, hs, hd⟩ | ⟨hn, hd⟩ := decode_cases op
  · simp only [hd, reduceCtorEq, false_iff]
    exact fun h => by simp [h r hr] at hs
  · exact ⟨fun _ => hn, fun _ => hd⟩

/-! ### The obligations -/

/-- An instruction whose word has row `k` of the opcode map, with the fields that row reads from it. -/
theorem decode_encode_of_row (k : Nat) {mask pattern : Word} {build : Word → Instr} {i : Instr}
    (hk : opcodeRows[k]? = some ⟨mask, pattern, build⟩) (hm : encode i &&& mask = pattern)
    (hb : build (encode i) = i) : decode (encode i) = .ok i := by
  rw [encodes_of_row k hk _ hm, hb]

/-- Settles O1: the word of each instruction selects its own row (`TableRow`), and the row reads the fields
the format put there. -/
theorem decodeOfEncode : Obligations.DecodeOfEncode := by
  intro i
  cases i with
  | cls => exact decode_encode_of_row 0 rfl TableRow.cls rfl
  | ret => exact decode_encode_of_row 1 rfl TableRow.ret rfl
  | jp nnn => exact decode_encode_of_row 2 rfl (TableRow.jp nnn) (by simp [encode])
  | call nnn => exact decode_encode_of_row 3 rfl (TableRow.call nnn) (by simp [encode])
  | seImm x nn => exact decode_encode_of_row 4 rfl (TableRow.seImm x nn) (by simp [encode])
  | sneImm x nn => exact decode_encode_of_row 5 rfl (TableRow.sneImm x nn) (by simp [encode])
  | seReg x y => exact decode_encode_of_row 6 rfl (TableRow.seReg x y) (by simp [encode])
  | ldImm x nn => exact decode_encode_of_row 7 rfl (TableRow.ldImm x nn) (by simp [encode])
  | addImm x nn => exact decode_encode_of_row 8 rfl (TableRow.addImm x nn) (by simp [encode])
  | ldReg x y => exact decode_encode_of_row 9 rfl (TableRow.ldReg x y) (by simp [encode])
  | orReg x y => exact decode_encode_of_row 10 rfl (TableRow.orReg x y) (by simp [encode])
  | andReg x y => exact decode_encode_of_row 11 rfl (TableRow.andReg x y) (by simp [encode])
  | xorReg x y => exact decode_encode_of_row 12 rfl (TableRow.xorReg x y) (by simp [encode])
  | addReg x y => exact decode_encode_of_row 13 rfl (TableRow.addReg x y) (by simp [encode])
  | subReg x y => exact decode_encode_of_row 14 rfl (TableRow.subReg x y) (by simp [encode])
  | shr x y => exact decode_encode_of_row 15 rfl (TableRow.shr x y) (by simp [encode])
  | subn x y => exact decode_encode_of_row 16 rfl (TableRow.subn x y) (by simp [encode])
  | shl x y => exact decode_encode_of_row 17 rfl (TableRow.shl x y) (by simp [encode])
  | sneReg x y => exact decode_encode_of_row 18 rfl (TableRow.sneReg x y) (by simp [encode])
  | ldI nnn => exact decode_encode_of_row 19 rfl (TableRow.ldI nnn) (by simp [encode])
  | jpV0 nnn => exact decode_encode_of_row 20 rfl (TableRow.jpV0 nnn) (by simp [encode])
  | rnd x nn => exact decode_encode_of_row 21 rfl (TableRow.rnd x nn) (by simp [encode])
  | drw x y n => exact decode_encode_of_row 22 rfl (TableRow.drw x y n) (by simp [encode])
  | skp x => exact decode_encode_of_row 23 rfl (TableRow.skp x) (by simp [encode])
  | sknp x => exact decode_encode_of_row 24 rfl (TableRow.sknp x) (by simp [encode])
  | ldVxDT x => exact decode_encode_of_row 25 rfl (TableRow.ldVxDT x) (by simp [encode])
  | ldVxK x => exact decode_encode_of_row 26 rfl (TableRow.ldVxK x) (by simp [encode])
  | ldDT x => exact decode_encode_of_row 27 rfl (TableRow.ldDT x) (by simp [encode])
  | ldST x => exact decode_encode_of_row 28 rfl (TableRow.ldST x) (by simp [encode])
  | addI x => exact decode_encode_of_row 29 rfl (TableRow.addI x) (by simp [encode])
  | ldF x => exact decode_encode_of_row 30 rfl (TableRow.ldF x) (by simp [encode])
  | ldB x => exact decode_encode_of_row 31 rfl (TableRow.ldB x) (by simp [encode])
  | storeRegs x => exact decode_encode_of_row 32 rfl (TableRow.storeRegs x) (by simp [encode])
  | loadRegs x => exact decode_encode_of_row 33 rfl (TableRow.loadRegs x) (by simp [encode])

/-- Every row of the opcode map builds, from a word that selects it, an instruction with that word. -/
theorem encode_build_of_and_mask : ∀ r ∈ opcodeRows, ∀ op : Word, op &&& r.mask = r.pattern →
    encode (r.build op) = op := by
  simp only [opcodeRows, opcodeRowsLow, opcodeRowsAlu, opcodeRowsHigh, opcodeRowsKeysAndMisc,
    List.forall_mem_append, List.forall_mem_cons]
  exact ⟨⟨⟨
    ⟨fun _ => pattern_eq_of_full_mask, fun _ => pattern_eq_of_full_mask,
      fun _ => formatNNN_fieldNNN 1, fun _ => formatNNN_fieldNNN 2,
      fun _ => formatXNN_fields 3, fun _ => formatXNN_fields 4, fun _ => formatXYN_fieldsXY 5 0,
      fun _ => formatXNN_fields 6, fun _ => formatXNN_fields 7, List.forall_mem_nil _⟩,
    ⟨fun _ => formatXYN_fieldsXY 8 0, fun _ => formatXYN_fieldsXY 8 1, fun _ => formatXYN_fieldsXY 8 2,
      fun _ => formatXYN_fieldsXY 8 3, fun _ => formatXYN_fieldsXY 8 4, fun _ => formatXYN_fieldsXY 8 5,
      fun _ => formatXYN_fieldsXY 8 6, fun _ => formatXYN_fieldsXY 8 7, fun _ => formatXYN_fieldsXY 8 14,
      List.forall_mem_nil _⟩⟩,
    ⟨fun _ => formatXYN_fieldsXY 9 0, fun _ => formatNNN_fieldNNN 10, fun _ => formatNNN_fieldNNN 11,
      fun _ => formatXNN_fields 12, fun _ => formatXYN_fields 13, List.forall_mem_nil _⟩⟩,
    ⟨fun _ => formatXNN_fieldX 14 0x9E, fun _ => formatXNN_fieldX 14 0xA1, fun _ => formatXNN_fieldX 15 0x07,
      fun _ => formatXNN_fieldX 15 0x0A, fun _ => formatXNN_fieldX 15 0x15, fun _ => formatXNN_fieldX 15 0x18,
      fun _ => formatXNN_fieldX 15 0x1E, fun _ => formatXNN_fieldX 15 0x29, fun _ => formatXNN_fieldX 15 0x33,
      fun _ => formatXNN_fieldX 15 0x55, fun _ => formatXNN_fieldX 15 0x65, List.forall_mem_nil _⟩⟩

/-- Settles O2: the word selects a row, and what that row builds from it has that word. -/
theorem encodeOfDecode : Obligations.EncodeOfDecode := by
  intro op i h
  obtain ⟨r, hr, hs, hd⟩ | ⟨-, hd⟩ := decode_cases op
  · obtain rfl : r.build op = i := Except.ok.inj (hd.symm.trans h)
    exact encode_build_of_and_mask r hr op (beq_iff_eq.mp hs)
  · rw [hd] at h
    cases h

/-- Settles O3: a word is rejected iff it selects no row, and the rows are told apart by the opcode nibble
and the low nibble or byte. -/
theorem unimplementedWordsExactly : Obligations.UnimplementedWordsExactly := by
  intro op
  have hfull (p : Word) : op &&& 0xFFFF = p ↔ op.toNat / 4096 = p.toNat / 4096 ∧ op = p := by
    rw [show op &&& 0xFFFF = op from BitVec.and_allOnes]
    exact ⟨fun h => ⟨by rw [h], h⟩, And.right⟩
  have h0 (p : Word) := and_mask_eq_iff op p (k := 0) (mask := 0xF000) (by decide) rfl
  have h4 (p : Word) := and_mask_eq_iff op p (k := 4) (mask := 0xF00F) (by decide) rfl
  have h8 (p : Word) := and_mask_eq_iff op p (k := 8) (mask := 0xF0FF) (by decide) rfl
  have hn0 : op.toNat % 16 < 16 := Nat.mod_lt _ (by decide)
  have hn3 : op.toNat / 4096 < 16 := Nat.div_lt_of_lt_mul op.isLt
  rw [decode_eq_unimplemented_iff]
  simp only [opcodeRows, opcodeRowsLow, opcodeRowsAlu, opcodeRowsHigh, opcodeRowsKeysAndMisc,
    List.cons_append, List.nil_append, List.forall_mem_cons, OpcodeRow.selects, beq_eq_false_iff_ne, ne_eq,
    hfull, h0, h4, h8, BitVec.reduceToNat, Nat.reducePow, Nat.reduceDiv, Nat.reduceMod, Nat.mod_one, and_true]
  -- For each opcode nibble both sides speak of the same low bits; only family 8 lists them otherwise.
  generalize op.toNat / 4096 = n3 at hn3 ⊢
  interval_cases n3 <;> simp
  · omega

/-- Settles O4: each word is the encoding of its instruction. -/
theorem specWordsDecode : Obligations.SpecWordsDecode :=
  ⟨decodeOfEncode .ret, decodeOfEncode (.call 0x300), decodeOfEncode (.seImm 3 0x2A),
    decodeOfEncode (.subReg 1 2), decodeOfEncode (.shl 15 0), decodeOfEncode (.rnd 3 0x0F),
    decodeOfEncode (.storeRegs 2), decodeOfEncode (.drw 0 1 2), decodeOfEncode (.skp 5),
    decodeOfEncode (.ldVxK 3)⟩

end Sys2Proof
end

section
/-! PROOFS. A `Step` (spec 60_exceptions.md R181): fetch, decode and execute, the two fatal conditions
before execution, the finished program and the placed word, and the obligations about them. -/

namespace Sys2Proof.Machine

/-! ### The word at `PC` -/

/-- The byte at the lower address is the high byte (20_memory.md R44). -/
theorem toNat_wordOfBytes (hi lo : Byte) : (wordOfBytes hi lo).toNat = hi.toNat * 256 + lo.toNat := by
  have hhi : (BitVec.setWidth 16 hi <<< 8).toNat = hi.toNat <<< 8 := by
    have := hi.isLt
    rw [BitVec.toNat_shiftLeft, BitVec.toNat_setWidth_of_le (by decide), Nat.shiftLeft_eq]
    omega
  rw [wordOfBytes, BitVec.toNat_or, hhi, BitVec.toNat_setWidth_of_le (by decide),
    ← Nat.shiftLeft_add_eq_or_of_lt lo.isLt, Nat.shiftLeft_eq]

theorem fetchWord_eq_of_toNat {s : State} {op : Word}
    (h : op.toNat = (s.mem.read s.pc.toNat).toNat * 256 + (s.mem.read (s.pc.toNat + 1)).toNat) :
    fetchWord s = op :=
  BitVec.eq_of_toNat_eq ((toNat_wordOfBytes _ _).trans h.symm)

/-! ### The three ways a `Step` of a running core can go -/

theorem coreStep_of_outside {s : State} (hr : s.Running) (hp : 4095 ≤ s.pc.toNat) :
    coreStep s = .next (withFatal (.outOfBounds .mem (max s.pc.toNat 4096)) s) := by
  simp [coreStep, show s.status = .running from hr, fetch_of_outside hp, raiseFatal_eq]

theorem coreStep_of_not_decodes {s : State} (hr : s.Running) (hp : s.pc.toNat ≤ 4094)
    (hd : ∀ i, decode (fetchWord s) ≠ .ok i) :
    coreStep s = .next (withFatal (.unimplementedOpcode (fetchWord s)) s) := by
  obtain ⟨r, -, -, h⟩ | ⟨-, h⟩ := decode_cases (fetchWord s)
  · exact absurd h (hd _)
  · simp [coreStep, show s.status = .running from hr, fetch_of_fits hp, h, raiseFatal_eq]

theorem coreStep_of_decodes {s : State} {i : Instr} (hr : s.Running) (hp : s.pc.toNat ≤ 4094)
    (hd : decode (fetchWord s) = .ok i) : coreStep s = exec i s := by
  simp [coreStep, show s.status = .running from hr, fetch_of_fits hp, hd]

/-! ### Taking the next operation leaves what a `Step` reads -/

section
variable {op : Operation} {s s' : State} (h : ComesNext op s s')
include h

theorem comesNext_status : s'.status = s.status := by rw [comesNext_frame h]
theorem comesNext_pc : s'.pc = s.pc := by rw [comesNext_frame h]
theorem comesNext_mem : s'.mem = s.mem := by rw [comesNext_frame h]
theorem comesNext_stack : s'.stack = s.stack := by rw [comesNext_frame h]
theorem comesNext_awaiting : s'.awaiting = s.awaiting := by rw [comesNext_frame h]

theorem comesNext_fetchWord : fetchWord s' = fetchWord s := by
  rw [fetchWord, comesNext_pc h, comesNext_mem h, fetchWord]

end

/-! ### The obligations -/

/-- Settles O5: the word at `PC` is `op`, so the `Step` executes what `op` decodes to. -/
theorem stepRunsDecodedInstruction : Obligations.StepRunsDecodedInstruction := by
  intro s s' op i hr hnext hp hop hd
  have hpc := comesNext_pc hnext
  have hfetch : fetchWord s' = op := (comesNext_fetchWord hnext).trans (fetchWord_eq_of_toNat hop)
  rw [step_of_comesNext hnext]
  exact coreStep_of_decodes ((comesNext_status hnext).trans hr) (by rw [hpc]; omega) (by rw [hfetch, hd])

/-- Settles O6: the bounds check of fetch comes before decode. -/
theorem fetchOutsideMemoryIsFatal : Obligations.FetchOutsideMemoryIsFatal := by
  intro s s' hr hnext hp
  have hpc := comesNext_pc hnext
  rw [TakesFatal, step_of_comesNext hnext, ← hpc]
  exact coreStep_of_outside ((comesNext_status hnext).trans hr) (by rw [hpc]; omega)

/-- Settles O7: the fetched word is `op`, which decode rejects. -/
theorem unimplementedWordIsFatal : Obligations.UnimplementedWordIsFatal := by
  intro s s' op hr hnext hp hop hd
  have hpc := comesNext_pc hnext
  obtain rfl : fetchWord s' = op := (comesNext_fetchWord hnext).trans (fetchWord_eq_of_toNat hop)
  rw [TakesFatal, step_of_comesNext hnext]
  exact coreStep_of_not_decodes ((comesNext_status hnext).trans hr) (by rw [hpc]; omega) hd

/-- The word of a jump to `PC` itself (70_reset_and_hazards.md R214). -/
theorem fetchWord_of_finished {s : State} (h : s.Finished) :
    s.pc.toNat ≤ 4094 ∧ fetchWord s = encode (.jp (s.pc.setWidth 12)) := by
  obtain ⟨-, hfetch, hword⟩ := h
  have hp := (fetch_ok_inv hfetch).1
  refine ⟨hp, BitVec.eq_of_toNat_eq ?_⟩
  have hn : (encode (.jp (s.pc.setWidth 12))).toNat = 0x1000 + (s.pc.setWidth 12).toNat := by
    rw [encode, formatNNN, BitVec.toNat_or, BitVec.toNat_setWidth_of_le (by decide),
      show ((1 : Nibble).setWidth 16 <<< 12).toNat = 1 <<< 12 from rfl,
      ← Nat.shiftLeft_add_eq_or_of_lt (BitVec.isLt _), Nat.shiftLeft_eq]
  rw [hword, hn, BitVec.toNat_setWidth, Nat.mod_eq_of_lt (by omega)]

/-- Settles O55: the `Step` executes a jump to `PC`, which writes only the output. -/
theorem finishedProgramStaysFinished : Obligations.FinishedProgramStaysFinished := by
  intro s s' hfin hnext
  obtain ⟨hp, hword⟩ := fetchWord_of_finished hfin
  have hpc := comesNext_pc hnext
  have htarget : zext12 (s.pc.setWidth 12) = s'.pc := by
    apply BitVec.eq_of_toNat_eq
    rw [toNat_zext12, BitVec.toNat_setWidth, hpc, Nat.mod_eq_of_lt (by omega)]
  rw [step_of_comesNext hnext]
  calc coreStep s' = exec (.jp (s.pc.setWidth 12)) s' :=
        coreStep_of_decodes ((comesNext_status hnext).trans hfin.1) (by rw [hpc]; omega)
          (by rw [comesNext_fetchWord hnext, hword, decodeOfEncode])
    _ = .next { s' with output := .event .none } := by rw [exec_jp, htarget]; rfl

/-! ### The placed word -/

theorem wordOfBytes_bytesOfWord (w : Word) :
    wordOfBytes (w.extractLsb' 8 8) (w.extractLsb' 0 8) = w := by
  ext i hi
  interval_cases i <;> simp [wordOfBytes]

theorem decode_of_decodeTableWord {nbits w : Nat} {i : Instr} (h : decodeTableWord nbits w = some i) :
    decode (BitVec.ofNat 16 (w % 2 ^ nbits)) = .ok i := by
  cases hd : decode (BitVec.ofNat 16 (w % 2 ^ nbits)) <;>
    simp_all [decodeTableWord, decodeBytes, tableBytes, bytesOfWord, wordOfBytes_bytesOfWord]

/-- The word is placed where both its bytes lie in memory. -/
theorem withFetchWord_pc_le (s : State) (nbits w : Nat) : (s.withFetchWord nbits w).pc.toNat ≤ 4094 := by
  show (if s.pc.toNat + 2 ≤ Config.memSize then s.pc else BitVec.ofNat 16 Config.progBase).toNat ≤ 4094
  split
  · next h => exact Nat.le_of_add_le_add_right h
  · decide

theorem fetchWord_withFetchWord {s : State} (hm : s.mem.wf = true) (nbits w : Nat) :
    fetchWord (s.withFetchWord nbits w) = BitVec.ofNat 16 (w % 2 ^ nbits) := by
  have hp := withFetchWord_pc_le s nbits w
  have hmem : (s.withFetchWord nbits w).mem =
    s.mem.writeBytes (s.withFetchWord nbits w).pc.toNat (tableBytes nbits w) := rfl
  have hlen : (tableBytes nbits w).length = 2 := rfl
  have hfit : (s.withFetchWord nbits w).pc.toNat + (tableBytes nbits w).length ≤ Config.memSize := by
    rw [hlen]
    exact Nat.add_le_add_right hp 2
  have hhi := Memory.read_writeBytes_same (k := 0) _ hm hfit (by rw [hlen]; decide)
  have hlo := Memory.read_writeBytes_same (k := 1) _ hm hfit (by rw [hlen]; decide)
  rw [fetchWord, hmem, hlo]
  rw [Nat.add_zero] at hhi
  rw [hhi]
  exact wordOfBytes_bytesOfWord _

/-- Settles O59: the core runs, `Step` comes next, and the word at `PC` is the placed one. -/
theorem placedWordIsNextInstruction : Obligations.PlacedWordIsNextInstruction := by
  intro s nbits w i hm hi
  have hnext : ComesNext .step (s.withFetchWord nbits w) (s.withFetchWord nbits w) :=
    .inr (.inl ⟨rfl, rfl, rfl, rfl⟩)
  rw [step_of_comesNext hnext]
  refine coreStep_of_decodes rfl (withFetchWord_pc_le s nbits w) ?_
  rw [fetchWord_withFetchWord hm, decode_of_decodeTableWord hi]

end Sys2Proof.Machine
end

section
/-! PROOFS. Returns and the jump with offset (spec 40_control_flow.md R81, R88, R173), and the obligations
about them. -/

namespace Sys2Proof.Machine

theorem exec_ret_of_stack_nil {s : State} (h : s.stack = []) :
    exec .ret s = .next (withFatal .stackUnderflow s) := by
  simp only [exec, execRet, h, raiseFatal_eq]

theorem exec_jpV0 (nnn : Addr12) (s : State) :
    exec (.jpV0 nnn) s = .next (finish (zext8 (readReg s 0) + zext12 nnn) .none s) := rfl

/-- A byte and a 12-bit number have a sum below 65536, so nothing wraps. -/
theorem toNat_zext8_add_zext12 (b : Byte) (nnn : Addr12) :
    (zext8 b + zext12 nnn).toNat = b.toNat + nnn.toNat := by
  have hb := b.isLt
  have hn := nnn.isLt
  rw [BitVec.toNat_add, toNat_zext8, toNat_zext12, Nat.mod_eq_of_lt (by omega)]

/-- Settles O12: the top of the stack becomes `PC`. -/
theorem retPopsReturnAddress : Obligations.RetPopsReturnAddress :=
  ⟨encodes_of_row 1 rfl, fun _ _ _ h => exec_ret_of_stack_cons h⟩

/-- Settles O13: an empty stack raises before anything is written. -/
theorem retOnEmptyStackIsFatal : Obligations.RetOnEmptyStackIsFatal :=
  fun _ h => exec_ret_of_stack_nil h

/-- Settles O16: the word sum does not wrap, so it is the sum of the integers. -/
theorem jumpOffsetAddsV0 : Obligations.JumpOffsetAddsV0 :=
  ⟨encodes_of_row 20 rfl, fun nnn s =>
    ⟨_, exec_jpV0 nnn s, toNat_zext8_add_zext12 (readReg s 0) nnn, rfl⟩⟩

end Sys2Proof.Machine
end

section
/-! PROOFS. Logic, arithmetic with a flag, shifts and the random byte (spec 41_load_alu.md R104 to R113),
and the obligations about them. -/

namespace Sys2Proof.Machine

/-! ### Each instruction as writes before the default end -/

theorem exec_orReg (x y : Nibble) (s : State) :
    exec (.orReg x y) s = advance .none (writeReg x (readReg s x ||| readReg s y) s) := rfl

theorem exec_andReg (x y : Nibble) (s : State) :
    exec (.andReg x y) s = advance .none (writeReg x (readReg s x &&& readReg s y) s) := rfl

theorem exec_xorReg (x y : Nibble) (s : State) :
    exec (.xorReg x y) s = advance .none (writeReg x (readReg s x ^^^ readReg s y) s) := rfl

theorem exec_addReg (x y : Nibble) (s : State) :
    exec (.addReg x y) s = advance .none (writeRegThenFlag x (readReg s x + readReg s y)
      (carryFlag (readReg s x) (readReg s y)) s) := rfl

theorem exec_subReg (x y : Nibble) (s : State) :
    exec (.subReg x y) s = advance .none (writeRegThenFlag x (readReg s x - readReg s y)
      (notBorrowFlag (readReg s x) (readReg s y)) s) := rfl

theorem exec_subn (x y : Nibble) (s : State) :
    exec (.subn x y) s = advance .none (writeRegThenFlag x (readReg s y - readReg s x)
      (notBorrowFlag (readReg s y) (readReg s x)) s) := rfl

theorem exec_shr (x y : Nibble) (s : State) :
    exec (.shr x y) s = advance .none (writeFlagThenShift x shiftRightFlag (fun a => a >>> 1) s) := rfl

theorem exec_shl (x y : Nibble) (s : State) :
    exec (.shl x y) s = advance .none (writeFlagThenShift x shiftLeftFlag (fun a => a <<< 1) s) := rfl

theorem exec_rnd (x : Nibble) (nn : Byte) (s : State) :
    exec (.rnd x nn) s =
      advance .none (consumeDraw (writeReg x (Config.draw s.drawCount &&& nn) s)) := rfl

theorem vf_eq : vf = 15 := rfl

/-! ### The two orders of a result and a flag -/

/-- Result, then flag, then the default end: `VF` holds the flag, `Vx` the result unless it is `VF`
(R113). -/
theorem advance_writeRegThenFlag (x : Nibble) (b flag : Byte) (s : State) :
    ∃ t, advance .none (writeRegThenFlag x b flag s) = .next t ∧
      readReg t 15 = flag ∧ (x ≠ 15 → readReg t x = b) ∧
      RegsKeptExcept (fun z => z = x ∨ z = 15) s t ∧ AdvancesQuietly s t ∧ OnlyRegs s t := by
  refine ⟨_, advance_eq _ _, readReg_writeRegThenFlag_vf x b flag s, fun hx => ?_, fun z hz => ?_,
    ⟨rfl, rfl⟩, rfl⟩
  · rw [readReg_finish, readReg_writeRegThenFlag, vf_eq, if_neg hx, if_pos rfl]
  · rw [not_or] at hz
    rw [readReg_finish, readReg_writeRegThenFlag, vf_eq, if_neg hz.2, if_neg hz.1]

/-- Flag, then `Vx` read again and shifted, then the default end: with `x = F` it is the flag that is
shifted (decision D8). -/
theorem advance_writeFlagThenShift (x : Nibble) (flag shift : Byte → Byte) (s : State) :
    ∃ t, advance .none (writeFlagThenShift x flag shift s) = .next t ∧
      (x ≠ 15 → readReg t 15 = flag (readReg s x) ∧ readReg t x = shift (readReg s x)) ∧
      (x = 15 → readReg t 15 = shift (flag (readReg s x))) ∧
      RegsKeptExcept (fun z => z = x ∨ z = 15) s t ∧ AdvancesQuietly s t ∧ OnlyRegs s t := by
  refine ⟨_, advance_eq _ _, fun hx => ⟨?_, ?_⟩, fun hx => ?_, fun z hz => ?_, ⟨rfl, rfl⟩, rfl⟩
  · rw [readReg_finish, readReg_writeFlagThenShift, if_neg (Ne.symm hx)]
    rfl
  · rw [readReg_finish, readReg_writeFlagThenShift, vf_eq, if_pos rfl, if_neg hx]
  · rw [readReg_finish, readReg_writeFlagThenShift, vf_eq, if_pos hx.symm, if_pos hx]
  · rw [not_or] at hz
    rw [readReg_finish, readReg_writeFlagThenShift, vf_eq, if_neg hz.1, if_neg hz.2]

/-! ### Values -/

theorem toNat_byte_sub (a b : Byte) : (a - b).toNat = (a.toNat + 256 - b.toNat) % 256 := by
  have := b.isLt
  rw [BitVec.toNat_sub]
  omega

theorem toNat_shiftRightFlag (a : Byte) : (shiftRightFlag a).toNat = a.toNat % 2 := by
  rw [shiftRightFlag, BitVec.toNat_and]
  exact Nat.and_one_is_mod a.toNat

/-- The flag is 0 or 1, so that it is shifted out. -/
theorem shiftRightFlag_shift (a : Byte) : shiftRightFlag a >>> 1 = 0 := by
  ext i hi
  simp [shiftRightFlag]

theorem shiftLeftFlag_eq (a : Byte) : shiftLeftFlag a = if a.toNat ≥ 128 then 0x80 else 0x00 := by
  have hbit : a.getLsbD 7 = decide (a.toNat ≥ 128) :=
    (BitVec.msb_eq_getLsbD_last a).symm.trans (BitVec.msb_eq_decide a)
  have hflag : shiftLeftFlag a = if a.getLsbD 7 then 0x80 else 0x00 := BitVec.and_twoPow a 7
  simp only [hflag, hbit, decide_eq_true_eq]

/-- The flag is 0x80 or 0, so that it is shifted out. -/
theorem shiftLeftFlag_shift (a : Byte) : shiftLeftFlag a <<< 1 = 0 := by
  rw [shiftLeftFlag_eq]
  split <;> rfl

/-! ### The obligations -/

/-- Settles O22: one write of the bitwise result each, then the default end. -/
theorem logicBitwiseWithoutFlag : Obligations.LogicBitwiseWithoutFlag := by
  refine ⟨encodes_of_row 10 rfl, encodes_of_row 11 rfl, encodes_of_row 12 rfl, fun x y s => ⟨?_, ?_, ?_⟩⟩
  · obtain ⟨t, ht, hx, hframe⟩ := advance_writeReg x (readReg s x ||| readReg s y) s
    exact ⟨t, (exec_orReg x y s).trans ht, fun b _ => by rw [hx, BitVec.getLsbD_or], hframe⟩
  · obtain ⟨t, ht, hx, hframe⟩ := advance_writeReg x (readReg s x &&& readReg s y) s
    exact ⟨t, (exec_andReg x y s).trans ht, fun b _ => by rw [hx, BitVec.getLsbD_and], hframe⟩
  · obtain ⟨t, ht, hx, hframe⟩ := advance_writeReg x (readReg s x ^^^ readReg s y) s
    exact ⟨t, (exec_xorReg x y s).trans ht, fun b _ => by rw [hx, BitVec.getLsbD_xor], hframe⟩

/-- Settles O23: the byte sum, then the carry. -/
theorem addRegistersWithCarry : Obligations.AddRegistersWithCarry := by
  refine ⟨encodes_of_row 13 rfl, fun x y s => ?_⟩
  obtain ⟨t, ht, hf, hx, hframe⟩ := advance_writeRegThenFlag x (readReg s x + readReg s y)
    (carryFlag (readReg s x) (readReg s y)) s
  exact ⟨t, (exec_addReg x y s).trans ht, hf, fun h => by rw [hx h, BitVec.toNat_add], hframe⟩

/-- Settles O24: the byte difference, then the not-borrow, with the operands either way round. -/
theorem subtractRegistersWithNotBorrow : Obligations.SubtractRegistersWithNotBorrow := by
  refine ⟨encodes_of_row 14 rfl, encodes_of_row 16 rfl, fun x y s => ⟨?_, ?_⟩⟩
  · obtain ⟨t, ht, hf, hx, hframe⟩ := advance_writeRegThenFlag x (readReg s x - readReg s y)
      (notBorrowFlag (readReg s x) (readReg s y)) s
    exact ⟨t, (exec_subReg x y s).trans ht, hf, fun h => by rw [hx h, toNat_byte_sub], hframe⟩
  · obtain ⟨t, ht, hf, hx, hframe⟩ := advance_writeRegThenFlag x (readReg s y - readReg s x)
      (notBorrowFlag (readReg s y) (readReg s x)) s
    exact ⟨t, (exec_subn x y s).trans ht, hf, fun h => by rw [hx h, toNat_byte_sub], hframe⟩

/-- Settles O25: the bit shifted out, then `Vx` halved; with `x = F` it is that bit that is halved. -/
theorem shiftRight : Obligations.ShiftRight := by
  refine ⟨encodes_of_row 15 rfl, fun x y s => ?_⟩
  obtain ⟨t, ht, hne, heq, hframe⟩ := advance_writeFlagThenShift x shiftRightFlag (fun a => a >>> 1) s
  refine ⟨t, (exec_shr x y s).trans ht, fun h => ?_, fun h => by rw [heq h, shiftRightFlag_shift], hframe⟩
  obtain ⟨hf, hx⟩ := hne h
  exact ⟨by rw [hf, toNat_shiftRightFlag], by rw [hx, BitVec.toNat_ushiftRight, Nat.shiftRight_one]⟩

/-- Settles O26: the bit shifted out, in place, then `Vx` doubled; with `x = F` it is that bit that is
doubled. -/
theorem shiftLeft : Obligations.ShiftLeft := by
  refine ⟨encodes_of_row 17 rfl, fun x y s => ?_⟩
  obtain ⟨t, ht, hne, heq, hframe⟩ := advance_writeFlagThenShift x shiftLeftFlag (fun a => a <<< 1) s
  refine ⟨t, (exec_shl x y s).trans ht, fun h => ?_, fun h => by rw [heq h, shiftLeftFlag_shift], hframe⟩
  obtain ⟨hf, hx⟩ := hne h
  refine ⟨by rw [hf, shiftLeftFlag_eq], ?_⟩
  rw [hx, BitVec.toNat_shiftLeft, Nat.shiftLeft_eq, Nat.pow_one, Nat.mul_comm]

/-- Settles O27: one write of the masked draw and one count, before the default end. -/
theorem randomUnderMask : Obligations.RandomUnderMask := by
  refine ⟨encodes_of_row 21 rfl, fun x nn s => ?_⟩
  have hx : readReg (writeReg x (Config.draw s.drawCount &&& nn) s) x = Config.draw s.drawCount &&& nn :=
    readReg_writeReg_same s x _
  have hmask : Config.draw s.drawCount &&& nn &&& ~~~nn = 0 := by
    rw [BitVec.and_assoc, BitVec.and_not_self]
    exact BitVec.and_zero
  exact ⟨_, exec_rnd x nn s, hx, (congrArg (· &&& ~~~nn) hx).trans hmask, rfl,
    fun z hz => readReg_writeReg_other s _ hz, ⟨rfl, rfl⟩, rfl⟩

end Sys2Proof.Machine
end

section
/-! PROOFS. The instructions that move bytes between memory and registers (spec 42_index_memory.md R124 to
R126), and the obligations about them. -/

namespace Sys2Proof.Machine

theorem exec_ldB (x : Nibble) (s : State) :
    exec (.ldB x) s = checkMem s.i.toNat 3 s
      (advance .none { s with mem := s.mem.writeBytes s.i.toNat (bcdDigits (readReg s x)) }) := rfl

theorem exec_storeRegs (x : Nibble) (s : State) :
    exec (.storeRegs x) s = checkMem s.i.toNat (x.toNat + 1) s
      (advance .none { s with mem := s.mem.writeBytes s.i.toNat (regsUpTo s x) }) := rfl

theorem exec_loadRegs (x : Nibble) (s : State) :
    exec (.loadRegs x) s = checkMem s.i.toNat (x.toNat + 1) s
      (advance .none { s with v := loadedRegs s x }) := rfl

@[simp] theorem bcdDigits_length (b : Byte) : (bcdDigits b).length = 3 := rfl

/-! ### The bytes stored and the registers loaded -/

@[simp] theorem regsUpTo_length (s : State) (x : Nibble) : (regsUpTo s x).length = x.toNat + 1 := by
  have := x.isLt
  rw [regsUpTo, List.length_take, Vector.length_toList]
  omega

theorem regsUpTo_getElem (s : State) (x z : Nibble) (h : z.toNat < (regsUpTo s x).length) :
    (regsUpTo s x)[z.toNat] = readReg s z := by
  simp only [regsUpTo, List.getElem_take, Vector.getElem_toList, readReg_eq]

theorem loadedRegs_getElem (s : State) (x z : Nibble) :
    (loadedRegs s x)[z.toNat]'z.isLt =
      if z.toNat ≤ x.toNat then s.mem.read (s.i.toNat + z.toNat) else readReg s z := by
  simp only [loadedRegs, Vector.getElem_ofFn, readReg_eq]
  rfl

/-- A store that fits, then the default end: the bytes stand from `I` on, every other byte is kept, and
nothing but memory, `PC` and the output changes. -/
theorem checkMem_writeBytes {s : State} {n : Nat} {bs : List Byte} (hm : s.mem.wf = true)
    (hn : bs.length = n) (hfit : s.i.toNat + n ≤ 4096) :
    ∃ t, checkMem s.i.toNat n s (advance .none { s with mem := s.mem.writeBytes s.i.toNat bs }) =
        .next t ∧
      (∀ k (h : k < bs.length), t.mem.read (s.i.toNat + k) = bs[k]) ∧
      (∀ a, a < s.i.toNat ∨ s.i.toNat + n ≤ a → t.mem.read a = s.mem.read a) ∧
      AdvancesQuietly s t ∧ OnlyMem s t := by
  subst hn
  exact ⟨_, checkMem_of_fits s _ (.inr hfit), fun k h => Memory.read_writeBytes_same bs hm hfit h,
    fun a h => Memory.read_writeBytes_other s.mem bs h, ⟨rfl, rfl⟩, rfl⟩

/-! ### The obligations -/

/-- Settles O29: a store of the three digits, each below 10 and so a byte of its own value. -/
theorem storeDecimalDigits : Obligations.StoreDecimalDigits := by
  refine ⟨encodes_of_row 31 rfl, fun x s hm hi => ?_⟩
  obtain ⟨t, ht, hbytes, hother, hframe⟩ :=
    checkMem_writeBytes (bs := bcdDigits (readReg s x)) hm rfl (by omega : s.i.toNat + 3 ≤ 4096)
  have hv := (readReg s x).isLt
  refine ⟨t, (exec_ldB x s).trans ht, ?_, ?_, ?_, hother, hframe⟩
  · exact (congrArg BitVec.toNat (hbytes 0 (by simp))).trans (Nat.mod_eq_of_lt (by omega))
  · exact (congrArg BitVec.toNat (hbytes 1 (by simp))).trans (Nat.mod_eq_of_lt (by omega))
  · exact (congrArg BitVec.toNat (hbytes 2 (by simp))).trans (Nat.mod_eq_of_lt (by omega))

/-- Settles O30: a store of the registers up to `Vx`. -/
theorem storeRegisters : Obligations.StoreRegisters := by
  refine ⟨encodes_of_row 32 rfl, fun x s hm hi => ?_⟩
  obtain ⟨t, ht, hbytes, hother, hframe⟩ := checkMem_writeBytes (bs := regsUpTo s x) hm
    (regsUpTo_length s x) (by omega : s.i.toNat + (x.toNat + 1) ≤ 4096)
  refine ⟨t, (exec_storeRegs x s).trans ht, fun z hz => ?_, hother, hframe⟩
  have hlt : z.toNat < (regsUpTo s x).length := by rw [regsUpTo_length]; omega
  rw [hbytes z.toNat hlt, regsUpTo_getElem]

/-- Settles O31: each register up to `Vx` is the byte at its place, each above it the old one. -/
theorem loadRegisters : Obligations.LoadRegisters := by
  refine ⟨encodes_of_row 33 rfl, fun x s hi => ?_⟩
  refine ⟨_, (exec_loadRegs x s).trans (checkMem_of_fits s _ (.inr (by omega))), fun z hz => ?_,
    fun z hz => ?_, ⟨rfl, rfl⟩, rfl⟩
  · exact (loadedRegs_getElem s x z).trans (if_pos hz)
  · exact (loadedRegs_getElem s x z).trans (if_neg hz)

/-- Settles O32: the bounds check comes before the first write. -/
theorem dataAccessOutsideMemoryIsFatal : Obligations.DataAccessOutsideMemoryIsFatal := by
  intro x s
  refine ⟨fun h => ?_, fun h => ⟨?_, ?_⟩⟩
  · exact (exec_ldB x s).trans (checkMem_of_outside s _ (by omega) (by omega))
  · exact (exec_storeRegs x s).trans (checkMem_of_outside s _ (by omega) (by omega))
  · exact (exec_loadRegs x s).trans (checkMem_of_outside s _ (by omega) (by omega))

/-- Settles O33: the load reads back what O30 says the store left, `I` being kept by it. -/
theorem storeThenLoadRestores : Obligations.StoreThenLoadRestores := by
  intro x s w hm hi
  obtain ⟨t, ht, hbytes, -, -, hmem⟩ := storeRegisters.2 x s hm hi
  have hti : t.i = s.i := by rw [hmem]
  obtain ⟨u, hu, hloaded, hkept, -, -⟩ := loadRegisters.2 x { t with v := w } (by rw [hti]; exact hi)
  refine ⟨t, u, ht, hu, fun z hz => ?_, fun z hz => hkept z (Nat.not_le.mpr hz)⟩
  rw [hloaded z hz, hti, hbytes z hz]

end Sys2Proof.Machine
end

section
/-! PROOFS. Clearing the screen and drawing (spec 43_display.md R141, R142): a draw flips each covered cell
once, and the obligations about them. -/

namespace Sys2Proof.Machine

/-! ### A draw as a list of cells with their bits -/

/-- The cells of a sprite whose first row starts at cell `k0`, each with its bit, row by row (R142). -/
def spriteBits : Nat → List Byte → List (Nat × Bool)
  | _, [] => []
  | k0, b :: bs =>
    (List.range 8).map (fun c => (k0 + c, b.getLsbD (7 - c))) ++ spriteBits (k0 + Config.videoWidth) bs

/-- Drawing a sprite is drawing its cells one after the other. -/
theorem drawRows_eq_foldl (p : Video × Bool) (k0 : Nat) (bs : List Byte) :
    drawRows p k0 bs = (spriteBits k0 bs).foldl (fun q kb => drawCell q kb.1 kb.2) p := by
  induction bs generalizing p k0 with
  | nil => rfl
  | cons b bs ih =>
    rw [drawRows, ih, spriteBits, List.foldl_append, List.foldl_map]
    rfl

/-- Cell `k` with `bit` is in the sprite iff some column of some row has that place and that bit. -/
theorem mem_spriteBits {k0 k : Nat} {bit : Bool} {bs : List Byte} :
    (k, bit) ∈ spriteBits k0 bs ↔
      ∃ r c, ∃ h : r < bs.length, c < 8 ∧ k = k0 + 64 * r + c ∧ bs[r].getLsbD (7 - c) = bit := by
  induction bs generalizing k0 with
  | nil => simp [spriteBits]
  | cons b bs ih =>
    simp only [spriteBits, List.mem_append, List.mem_map, List.mem_range, Prod.mk.injEq, ih,
      Config.videoWidth]
    constructor
    · rintro (⟨c, hc, rfl, hb⟩ | ⟨r, c, hr, hc, rfl, hb⟩)
      · exact ⟨0, c, by simp, hc, by omega, hb⟩
      · exact ⟨r + 1, c, by simpa using hr, hc, by omega, hb⟩
    · rintro ⟨r, c, hr, hc, rfl, hb⟩
      cases r with
      | zero => exact .inl ⟨c, hc, by omega, hb⟩
      | succ r => exact .inr ⟨r, c, by simpa using hr, hc, by omega, hb⟩

/-- The cells come by rising index, so no cell comes twice. -/
theorem spriteBits_pairwise (k0 : Nat) (bs : List Byte) :
    (spriteBits k0 bs).Pairwise (fun a b => a.1 < b.1) := by
  induction bs generalizing k0 with
  | nil => exact .nil
  | cons b bs ih =>
    refine List.pairwise_append.mpr ⟨?_, ih _, ?_⟩
    · exact List.pairwise_map.mpr (List.pairwise_lt_range.imp fun h => Nat.add_lt_add_left h k0)
    · rintro ⟨k, bit⟩ hrow ⟨k', bit'⟩ hrest
      obtain ⟨c, hc, he⟩ := List.mem_map.mp hrow
      obtain ⟨r, c', -, -, hk', -⟩ := mem_spriteBits.mp hrest
      have hk : k0 + c = k := congrArg Prod.fst he
      have hc8 := List.mem_range.mp hc
      simp only [Config.videoWidth] at hk' ⊢
      omega

/-! ### Drawing cells, none twice -/

/-- Drawing cells of rising index inverts exactly those whose bit is 1. -/
theorem cell_foldl_drawCell {l : List (Nat × Bool)} (p : Video × Bool)
    (hl : l.Pairwise (fun a b => a.1 < b.1)) (hb : ∀ kb ∈ l, kb.1 < 2048) (j : Nat) :
    (l.foldl (fun q kb => drawCell q kb.1 kb.2) p).1.cell j = (p.1.cell j ^^ decide ((j, true) ∈ l)) := by
  induction l generalizing p with
  | nil => simp
  | cons kb l ih =>
    obtain ⟨k, bit⟩ := kb
    rw [List.pairwise_cons] at hl
    rw [List.forall_mem_cons] at hb
    rw [List.foldl_cons, ih _ hl.2 hb.2, drawCell_fst_cell p hb.1]
    have hnot : j = k → (j, true) ∉ l := by
      rintro rfl hmem
      exact absurd (hl.1 _ hmem) (lt_irrefl _)
    by_cases hj : j = k
    · subst hj
      cases bit <;> simp [hnot rfl]
    · simp [hj]

/-- Drawing cells of rising index finds a collision iff one with bit 1 was on before the first of them. -/
theorem snd_foldl_drawCell {l : List (Nat × Bool)} (p : Video × Bool)
    (hl : l.Pairwise (fun a b => a.1 < b.1)) (hb : ∀ kb ∈ l, kb.1 < 2048) :
    (l.foldl (fun q kb => drawCell q kb.1 kb.2) p).2 = true ↔
      p.2 = true ∨ ∃ k, (k, true) ∈ l ∧ p.1.cell k = true := by
  induction l generalizing p with
  | nil => simp
  | cons kb l ih =>
    obtain ⟨k, bit⟩ := kb
    rw [List.pairwise_cons] at hl
    rw [List.forall_mem_cons] at hb
    have hkept : (∃ j, (j, true) ∈ l ∧ (drawCell p k bit).1.cell j = true) ↔
        ∃ j, (j, true) ∈ l ∧ p.1.cell j = true := by
      refine exists_congr fun j => and_congr_right fun hj => ?_
      have hne : j ≠ k := (hl.1 _ hj).ne'
      simp [drawCell_fst_cell p hb.1, hne]
    rw [List.foldl_cons, ih _ hl.2 hb.2, drawCell_snd, hkept]
    simp only [List.mem_cons, Prod.mk.injEq, or_and_right, exists_or, and_assoc, exists_eq_left]
    cases bit <;> simp [or_assoc]

/-! ### The draw of an instruction -/

/-- What `Dxyn` draws: `n` rows of the sprite at `I`, the first at column `x0` of row `y0`. -/
def spriteDraw (s : State) (x0 y0 n : Nat) : Video × Bool :=
  drawRows (s.video, false) (cellIndex x0 y0) (s.mem.readBytes s.i.toNat n)

theorem exec_drw (x y n : Nibble) (s : State) :
    exec (.drw x y n) s =
      let x0 := originColumn (readReg s x)
      let y0 := originRow (readReg s y)
      checkMem s.i.toNat n.toNat s (checkVideo x0 y0 n.toNat s (advance .displayUpdated
        (writeReg vf (collisionFlag (spriteDraw s x0 y0 n.toNat).2)
          { s with video := (spriteDraw s x0 y0 n.toNat).1 }))) := rfl

theorem spriteCovers_iff {s : State} {x0 y0 n k : Nat} :
    SpriteCovers s x0 y0 n k ↔
      (k, true) ∈ spriteBits (cellIndex x0 y0) (s.mem.readBytes s.i.toNat n) := by
  simp only [mem_spriteBits, Memory.readBytes_length, Memory.getElem_readBytes, cellIndex,
    Config.videoWidth, exists_prop]
  refine exists_congr fun r => exists_congr fun c => ?_
  rw [show 64 * (y0 + r) + x0 + c = 64 * y0 + x0 + 64 * r + c by ring]

/-- A draw that fits stays inside video memory. -/
theorem spriteBits_lt {s : State} {x0 y0 n : Nat} (h : DrawFits s x0 y0 n) :
    ∀ kb ∈ spriteBits (cellIndex x0 y0) (s.mem.readBytes s.i.toNat n), kb.1 < 2048 := by
  rintro ⟨k, bit⟩ hk
  obtain ⟨r, c, hr, hc, rfl, -⟩ := mem_spriteBits.mp hk
  rw [Memory.readBytes_length] at hr
  simp only [DrawFits, cellIndex, Config.videoWidth] at h ⊢
  omega

theorem lt_of_spriteCovers {s : State} {x0 y0 n k : Nat} (h : DrawFits s x0 y0 n)
    (hk : SpriteCovers s x0 y0 n k) : k < 2048 :=
  spriteBits_lt h _ (spriteCovers_iff.mp hk)

theorem cell_spriteDraw {s : State} {x0 y0 n : Nat} (h : DrawFits s x0 y0 n) (k : Nat) :
    (spriteDraw s x0 y0 n).1.cell k = (s.video.cell k ^^
      decide ((k, true) ∈ spriteBits (cellIndex x0 y0) (s.mem.readBytes s.i.toNat n))) := by
  rw [spriteDraw, drawRows_eq_foldl]
  exact cell_foldl_drawCell _ (spriteBits_pairwise _ _) (spriteBits_lt h) k

theorem cell_spriteDraw_of_covers {s : State} {x0 y0 n k : Nat} (h : DrawFits s x0 y0 n)
    (hk : SpriteCovers s x0 y0 n k) : (spriteDraw s x0 y0 n).1.cell k = !s.video.cell k := by
  rw [cell_spriteDraw h, decide_eq_true (spriteCovers_iff.mp hk), Bool.xor_true]

theorem cell_spriteDraw_of_not_covers {s : State} {x0 y0 n k : Nat} (h : DrawFits s x0 y0 n)
    (hk : ¬ SpriteCovers s x0 y0 n k) : (spriteDraw s x0 y0 n).1.cell k = s.video.cell k := by
  rw [cell_spriteDraw h, decide_eq_false (mt spriteCovers_iff.mpr hk), Bool.xor_false]

/-- The collision of a draw that fits: some cell went from on to off. -/
theorem collision_spriteDraw {s : State} {x0 y0 n : Nat} (h : DrawFits s x0 y0 n) :
    (spriteDraw s x0 y0 n).2 = true ↔
      ∃ k < 2048, s.video.cell k = true ∧ (spriteDraw s x0 y0 n).1.cell k = false := by
  have hiff : (spriteDraw s x0 y0 n).2 = true ↔
      ∃ k, SpriteCovers s x0 y0 n k ∧ s.video.cell k = true := by
    rw [spriteDraw, drawRows_eq_foldl, snd_foldl_drawCell _ (spriteBits_pairwise _ _) (spriteBits_lt h)]
    simp only [spriteCovers_iff, Bool.false_eq_true, false_or]
  rw [hiff]
  constructor
  · rintro ⟨k, hk, hon⟩
    exact ⟨k, lt_of_spriteCovers h hk, hon, by rw [cell_spriteDraw_of_covers h hk, hon]; rfl⟩
  · rintro ⟨k, -, hon, hoff⟩
    refine ⟨k, ?_, hon⟩
    by_contra hk
    rw [cell_spriteDraw_of_not_covers h hk, hon] at hoff
    cases hoff

/-! ### The obligations -/

/-- Settles O34: video memory becomes the blank one. -/
theorem clearScreen : Obligations.ClearScreen :=
  ⟨encodes_of_row 0 rfl, fun _ => ⟨_, rfl, fun k _ => Video.cell_blank k, ⟨rfl, rfl⟩, rfl⟩⟩

/-- Settles O35: both checks pass, and the draw is described cell by cell. -/
theorem drawSprite : Obligations.DrawSprite := by
  refine ⟨encodes_of_row 22 rfl, ?_⟩
  intro x y n s x0 y0 hfit
  have hmem : n.toNat = 0 ∨ s.i.toNat + n.toNat ≤ 4096 := by
    simp only [DrawFits] at hfit
    omega
  have hvideo : n.toNat = 0 ∨ 64 * (y0 + n.toNat - 1) + x0 + 7 ≤ 2047 := hfit.imp_right And.right
  have hexec : exec (.drw x y n) s = _ :=
    (exec_drw x y n s).trans ((checkMem_of_fits s _ hmem).trans (checkVideo_of_fits s _ hvideo))
  refine ⟨_, hexec, fun k _ hk => cell_spriteDraw_of_covers hfit hk,
    fun k _ hk => cell_spriteDraw_of_not_covers hfit hk, fun h => ?_, fun h => ?_,
    fun z hz => readReg_writeReg_other _ _ hz, rfl, rfl, rfl⟩
  · exact (readReg_writeReg_same _ vf _).trans (if_pos ((collision_spriteDraw hfit).mpr h))
  · exact (readReg_writeReg_same _ vf _).trans (if_neg (mt (collision_spriteDraw hfit).mp h))

/-- Settles O36: the check of memory comes first, then that of video memory. -/
theorem drawOutsideIsFatal : Obligations.DrawOutsideIsFatal := by
  intro x y n s x0 y0 kmax hn
  refine ⟨fun hmem => ?_, fun hmem hvideo => ?_⟩
  · exact (exec_drw x y n s).trans (checkMem_of_outside s _ (by omega) (by omega))
  · exact (exec_drw x y n s).trans ((checkMem_of_fits s _ (by omega)).trans
      (checkVideo_of_outside s _ (by omega) hvideo))

/-- Settles O37: the second draw covers the same cells as the first and so inverts them back; a covered cell
that was off is on between the two. -/
theorem drawTwiceRestores : Obligations.DrawTwiceRestores := by
  intro x y n s x0 y0 hx hy hfit
  obtain ⟨t, ht, hcov, hnot, -, hzero, hregs, -, -, hframe⟩ := drawSprite.2 x y n s hfit
  have hi : t.i = s.i := by rw [hframe]
  have hm : t.mem = s.mem := by rw [hframe]
  have hsame : ∀ k, SpriteCovers t x0 y0 n.toNat k ↔ SpriteCovers s x0 y0 n.toNat k := by
    intro k
    rw [SpriteCovers, SpriteCovers, hi, hm]
  have hdraw := drawSprite.2 x y n t
  rw [hregs x hx, hregs y hy] at hdraw
  obtain ⟨u, hu, hcov', hnot', hone', -⟩ := hdraw (by rw [DrawFits, hi]; exact hfit)
  refine ⟨t, u, ht, hu, fun k hk => ?_, fun hoff => ⟨hzero ?_, fun ⟨k, hk⟩ => hone' ?_⟩⟩
  · by_cases hc : SpriteCovers s x0 y0 n.toNat k
    · rw [hcov' k hk ((hsame k).mpr hc), hcov k hk hc, Bool.not_not]
    · rw [hnot' k hk (mt (hsame k).mp hc), hnot k hk hc]
  · rintro ⟨k, hk, hon, hoff'⟩
    by_cases hc : SpriteCovers s x0 y0 n.toNat k
    · rw [hoff k hk hc] at hon
      cases hon
    · rw [hnot k hk hc, hon] at hoff'
      cases hoff'
  · have hlt := lt_of_spriteCovers hfit hk
    have hon : t.video.cell k = true := by rw [hcov k hlt hk, hoff k hlt hk]; rfl
    exact ⟨k, hlt, hon, by rw [hcov' k hlt ((hsame k).mpr hk), hon]; rfl⟩

end Sys2Proof.Machine
end

section
/-! PROOFS. The operations of the host and of the timers (spec 60_exceptions.md R180 to R200): what each does
on a running and on a halted core, and the obligations about them. -/

namespace Sys2Proof.Machine

/-! ### One equation for each operation and each kind of core -/

theorem coreStep_of_halted {s : State} (h : s.Halted) :
    coreStep s = .next (withOutput (.event .none) s) := by
  obtain ⟨f, hf⟩ := h
  simp only [coreStep, hf]

theorem tick_of_halted {s : State} (h : s.Halted) : tick s = withOutput (.event .none) s := by
  obtain ⟨f, hf⟩ := h
  simp only [tick, tickEvent, hf]

theorem tickEvent_of_running {s : State} (h : s.Running) :
    tickEvent s = beepEvent s.st (countDown s.st) := by
  simp only [tickEvent, show s.status = .running from h]

theorem tick_of_running {s : State} (h : s.Running) :
    tick s = withOutput (.event (tickEvent s)) (decayTimers s) := by
  simp only [tick, show s.status = .running from h]

theorem not_running_iff_halted {s : State} : ¬ s.Running ↔ s.Halted := by
  simp only [State.Running, State.Halted]
  cases s.status <;> simp

theorem stepWithDecay_of_not_running {s t : State} (k : Nat) (h : coreStep s = .next t)
    (ht : ¬ t.Running) : stepWithDecay k s = .next t := by
  obtain ⟨f, hf⟩ := not_running_iff_halted.mp ht
  simp only [stepWithDecay, h, hf]

theorem stepWithDecay_of_running {s t : State} (k : Nat) (h : coreStep s = .next t) (ht : t.Running) :
    stepWithDecay k s = .next (withOutput
      (if t.output = .event .none then .event (decayTicks .none k t).1 else t.output)
      (decayTicks .none k t).2) := by
  simp only [stepWithDecay, h, show t.status = .running from ht]

theorem setPressed_of_running {k : Nat} (hk : k < 16) (p : Bool) {s : State} (h : s.Running) :
    setPressed k p s = .next (withOutput .nothing (recordKey (BitVec.ofNat 4 k) p s)) := by
  simp only [setPressed, Config.keyCount, if_pos hk, show s.status = .running from h]

theorem setPressed_of_halted {k : Nat} (hk : k < 16) (p : Bool) {s : State} (h : s.Halted) :
    setPressed k p s = .next (withOutput .nothing s) := by
  obtain ⟨f, hf⟩ := h
  simp only [setPressed, Config.keyCount, if_pos hk, hf]

theorem setPressed_of_outside {k : Nat} (hk : 15 < k) (p : Bool) (s : State) :
    setPressed k p s = .refused (.keyOutsideInterface k) :=
  if_neg (Nat.not_lt.mpr hk)

theorem loadResult_eq (bytes : List Byte) :
    loadResult bytes = if bytes.length ≤ 3584 then .ok else .loadError bytes.length := by
  simp only [loadResult, romWellFormed, Config.romMax, decide_eq_true_eq]

theorem loadProgram_of_halted (bytes : List Byte) {s : State} (h : s.Halted) :
    loadProgram bytes s = .next (withOutput (.load (loadResult bytes)) s) := by
  obtain ⟨f, hf⟩ := h
  simp only [loadProgram, hf]

theorem loadProgram_of_fits {bytes : List Byte} {s : State} (h : s.Running) (hj : justReset s = true)
    (hl : bytes.length ≤ 3584) :
    loadProgram bytes s = .next (withOutput (.load .ok)
      { s with mem := s.mem.writeBytes 0x200 bytes, pc := 0x200 }) := by
  simp only [loadProgram, show s.status = .running from h, hj, loadResult_eq, if_pos hl, if_true]
  rfl

theorem loadProgram_of_oversize {bytes : List Byte} {s : State} (h : s.Running)
    (hj : justReset s = true) (hl : 3584 < bytes.length) :
    loadProgram bytes s = .next (withOutput (.load (.loadError bytes.length)) s) := by
  simp only [loadProgram, show s.status = .running from h, hj, loadResult_eq,
    if_neg (Nat.not_le.mpr hl), if_true]

theorem loadProgram_of_not_justReset (bytes : List Byte) {s : State} (h : s.Running)
    (hj : justReset s = false) : loadProgram bytes s = .refused .loadNotAfterReset := by
  simp only [loadProgram, show s.status = .running from h, hj, Bool.false_eq_true, if_false]

/-! ### A state directly after `Reset` -/

section
variable {s : State} (h : justReset s = true)
include h

theorem justReset_mem : s.mem = fontMemory s.font := by
  rw [← of_decide_eq_true h]
  rfl

theorem justReset_stack : s.stack = [] := by
  rw [← of_decide_eq_true h]
  rfl

theorem justReset_awaiting : s.awaiting = false := by
  rw [← of_decide_eq_true h]
  rfl

theorem justReset_mem_wf : s.mem.wf = true := by
  rw [justReset_mem h]
  exact fontMemory_wf s.font

end

/-! ### The countdown -/

theorem byte_eq_zero_iff (b : Byte) : b = 0 ↔ b.toNat = 0 := BitVec.toNat_eq

theorem toNat_countDown (b : Byte) : (countDown b).toNat = b.toNat - 1 := by
  rw [countDown]
  split
  · next h => rw [h]; rfl
  · next h =>
    have hb : b.toNat ≠ 0 := mt (byte_eq_zero_iff b).mpr h
    have := b.isLt
    rw [BitVec.toNat_sub, show (1 : Byte).toNat = 1 from rfl]
    omega

/-- The edge of `ST`, as numbers (R187). -/
theorem beepEvent_eq (before after : Byte) :
    beepEvent before after =
      if before.toNat = 0 ∧ after.toNat > 0 then .startBeep
      else if before.toNat > 0 ∧ after.toNat = 0 then .stopBeep else .none := by
  simp only [beepEvent, ne_eq, byte_eq_zero_iff, Nat.pos_iff_ne_zero, gt_iff_lt]

/-- A countdown has the falling edge alone, at 1. -/
theorem beepEvent_countDown (b : Byte) :
    beepEvent b (countDown b) = if b.toNat = 1 then .stopBeep else .none := by
  rw [beepEvent_eq, toNat_countDown, if_neg (by omega)]
  exact if_congr (by omega) rfl rfl

theorem tick_running {s : State} (h : s.Running) : (tick s).Running := by
  rw [tick_of_running h]
  exact h

theorem tick_dt {s : State} (h : s.Running) : (tick s).dt.toNat = s.dt.toNat - 1 := by
  rw [tick_of_running h]
  exact toNat_countDown s.dt

theorem tick_st {s : State} (h : s.Running) : (tick s).st.toNat = s.st.toNat - 1 := by
  rw [tick_of_running h]
  exact toNat_countDown s.st

theorem tickEvent_eq {s : State} (h : s.Running) :
    tickEvent s = if s.st.toNat = 1 then .stopBeep else .none :=
  (tickEvent_of_running h).trans (beepEvent_countDown s.st)

/-- Any number of `Tick`s, by induction on it. -/
theorem iterate_tick (n : Nat) {s : State} (h : s.Running) :
    (tick^[n] s).Running ∧ (tick^[n] s).dt.toNat = s.dt.toNat - n ∧
      (tick^[n] s).st.toNat = s.st.toNat - n := by
  induction n with
  | zero => exact ⟨h, rfl, rfl⟩
  | succ n ih =>
    obtain ⟨hr, hdt, hst⟩ := ih
    rw [Function.iterate_succ_apply']
    refine ⟨tick_running hr, ?_, ?_⟩
    · rw [tick_dt hr, hdt, Nat.sub_sub]
    · rw [tick_st hr, hst, Nat.sub_sub]

theorem decayTicks_snd (d : Event) (k : Nat) (s : State) : (decayTicks d k s).2 = tick^[k] s := by
  induction k generalizing d s with
  | zero => rfl
  | succ k ih => rw [decayTicks, ih, Function.iterate_succ_apply]

/-- The event of a decay: `StopBeep` if it takes `ST` to zero. -/
theorem decayTicks_fst (d : Event) (k : Nat) {s : State} (h : s.Running) :
    (decayTicks d k s).1 = if 0 < s.st.toNat ∧ s.st.toNat ≤ k then .stopBeep else d := by
  induction k generalizing d s with
  | zero => exact (if_neg (by omega)).symm
  | succ k ih =>
    rw [decayTicks, ih _ (tick_running h), tick_st h, tickEvent_eq h]
    by_cases h1 : s.st.toNat = 1
    · simp [h1]
    · simp only [if_neg h1, if_true]
      exact if_congr (by omega) rfl rfl

/-! ### The obligations -/

/-- Settles O8: on a halted core each operation but `Reset` is one new output. -/
theorem haltedCoreChangesNothing : Obligations.HaltedCoreChangesNothing := by
  intro s op h hop hkey
  cases op with
  | reset => exact absurd rfl hop
  | loadProgram bytes =>
    refine ⟨_, loadProgram_of_halted bytes h, rfl, by simp, ?_⟩
    rintro _ ⟨rfl⟩
    rw [withOutput_output, loadResult_eq]
  | step => exact ⟨_, coreStep_of_halted h, rfl, fun _ => rfl, by simp⟩
  | tick => exact ⟨_, congrArg Host.Outcome.next (tick_of_halted h), rfl, fun _ => rfl, by simp⟩
  | stepWithDecay k =>
    have hdecay := stepWithDecay_of_not_running k (coreStep_of_halted h) (not_running_iff_halted.mpr h)
    exact ⟨_, hdecay, rfl, fun _ => rfl, by simp⟩
  | setPressed k p => exact ⟨_, setPressed_of_halted (hkey k p rfl) p h, rfl, by simp, by simp⟩
  | readVideo => exact ⟨_, rfl, rfl, by simp, by simp⟩
  | readStatus => exact ⟨_, rfl, rfl, by simp, by simp⟩

/-- Settles O45: the step is one `Tick` of the state without that head of its schedule. -/
theorem tickDecaysTimers : Obligations.TickDecaysTimers := by
  intro s rest hs
  have hstep : step s = .next (tick { s with schedule := rest }) :=
    step_of_comesNext (op := .tick) (.inl ⟨rest, hs, rfl⟩)
  refine ⟨fun h => ?_, fun h => ?_⟩
  · have hr : { s with schedule := rest }.Running := h
    refine ⟨_, hstep, tick_dt hr, tick_st hr, ?_, ?_⟩
    · rw [tick_of_running hr, tickEvent_eq hr]
      rfl
    · rw [tick_of_running hr]
      rfl
  · rw [hstep, tick_of_halted (s := { s with schedule := rest }) h]
    rfl

/-- Settles O46: after `n` Ticks `ST` is down by `n`, and the next one emits at 1. -/
theorem ticksCountDown : Obligations.TicksCountDown := by
  intro n s h
  obtain ⟨hr, hdt, hst⟩ := iterate_tick n h
  have hone : s.st.toNat - n = 1 ↔ s.st.toNat = n + 1 := by omega
  refine ⟨hdt, hst, ?_, ?_⟩
  · simp [tickEvent_eq hr, hst, ← hone]
  · simp [tickEvent_eq hr, hst, ← hone]

/-- Settles O47: the decay is the iterated `Tick`, and its event is kept only behind an event `None`. -/
theorem stepWithDecayIsStepThenTicks : Obligations.StepWithDecayIsStepThenTicks := by
  intro k s t h
  refine ⟨fun ht => ⟨_, stepWithDecay_of_running k h ht, ?_, ?_⟩,
    fun ht => stepWithDecay_of_not_running k h ht⟩
  · rw [decayTicks_snd]
    rfl
  · rw [withOutput_output, decayTicks_fst .none k ht, ite_not]

/-- Settles O48: the latch of a running core records the key. -/
theorem setPressedRecordsKey : Obligations.SetPressedRecordsKey := by
  intro k p s
  refine ⟨fun hk h => ⟨_, setPressed_of_running hk p h, ?_, fun j hj hne => ?_, rfl, rfl⟩,
    fun hk => setPressed_of_outside hk p s⟩
  · simp [Nat.mod_eq_of_lt hk]
  · have hne' : k ≠ j := hne.symm
    simp [Nat.mod_eq_of_lt hk, Vector.getElem_set_ne, hne']

/-- Settles O49: memory directly after `Reset` is canonical, so the image is read back. -/
theorem loadProgramAfterReset : Obligations.LoadProgramAfterReset := by
  intro bytes s h
  refine ⟨fun hj hl => ?_, fun hj hl => loadProgram_of_oversize h hj hl,
    fun hj => loadProgram_of_not_justReset bytes h hj⟩
  have hfit : 0x200 + bytes.length ≤ Config.memSize := by
    rw [Config.memSize]
    omega
  exact ⟨_, loadProgram_of_fits h hj hl, rfl, rfl,
    fun k hk => Memory.read_writeBytes_same bytes (justReset_mem_wf hj) hfit hk,
    fun a ha => Memory.read_writeBytes_other s.mem bytes ha, rfl⟩

/-- Reset memory of a machine with the default font lists nothing (log 3). -/
theorem fontMemory_fontDefault : fontMemory Config.fontDefault = [] := by decide

/-- Settles O50: the reset values field by field, and memory by the laws of `fontMemory`. -/
theorem resetLeavesResetValues : Obligations.ResetLeavesResetValues := by
  refine ⟨fun s => ⟨_, rfl, fun x => ?_, rfl, rfl, rfl, rfl, rfl, fun a h => fontMemory_read s.font h,
    fun a h => fontMemory_read_zero s.font h, fun k _ => Video.cell_blank k, fun k h => ?_,
    rfl, rfl, rfl, rfl, rfl⟩, ?_⟩
  · rw [readReg_eq]
    exact Vector.getElem_replicate _
  · exact Vector.getElem_replicate _
  · rw [perform, resetFrom_eq, show State.reset.font = Config.fontDefault from rfl,
      fontMemory_fontDefault]
    rfl

/-- Settles O51: byte `k` of the view is cell `k`, and both reads are one new output. -/
theorem hostReadsShowVideoAndStatus : Obligations.HostReadsShowVideoAndStatus := by
  refine fun s => ⟨⟨_, rfl, rfl, rfl, by simp [displayView], fun c r hc hr => ?_⟩, rfl⟩
  have hk : 64 * r + c < Config.videoCells := by
    rw [Config.videoCells]
    omega
  rw [displayView, List.getElem?_map, List.getElem?_range hk]
  rfl

/-- Settles O57: nothing is listed, the stack is empty, no wait is armed. -/
theorem resetHasMachineInvariant : Obligations.ResetHasMachineInvariant where
  memWf := rfl
  pcBounded := ⟨by decide, fun _ h => nomatch h⟩
  waitHeld := fun h => nomatch h

end Sys2Proof.Machine
end

section
/-! PROOFS. The skips on a key, the sound timer and the key wait (spec 44_keys_timers.md R151 to R156), and
the obligations about them. -/

namespace Sys2Proof.Machine

theorem exec_skp (x : Nibble) (s : State) :
    exec (.skp x) s = withKey (readReg s x) s fun pressed => skipIf pressed s := rfl

theorem exec_sknp (x : Nibble) (s : State) :
    exec (.sknp x) s = withKey (readReg s x) s fun pressed => skipIf (!pressed) s := rfl

theorem exec_ldST (x : Nibble) (s : State) :
    exec (.ldST x) s = advance (beepEvent s.st (readReg s x)) { s with st := readReg s x } := rfl

/-! ### The key wait, poll by poll (R196) -/

theorem exec_ldVxK_of_not_awaiting (x : Nibble) {s : State} (h : s.awaiting = false) :
    exec (.ldVxK x) s = .next (finish s.pc .none (armWait s)) := by
  simp only [exec, execLdVxK, pollWaitForKey_arm h, jumpTo_eq, armWait_pc]

theorem exec_ldVxK_of_pending (x : Nibble) {s : State} (h : s.awaiting = true) (hp : s.lastPress = none) :
    exec (.ldVxK x) s = .next (finish s.pc .none s) := by
  simp only [exec, execLdVxK, pollWaitForKey_pending h hp, jumpTo_eq]

theorem exec_ldVxK_of_captured (x : Nibble) {k : Nibble} {s : State} (h : s.awaiting = true)
    (hp : s.lastPress = some k) :
    exec (.ldVxK x) s = advance .none (writeReg x (keyByte k) (disarmWait s)) := by
  simp only [exec, execLdVxK, pollWaitForKey_captured h hp]

theorem toNat_keyByte (k : Nibble) : (keyByte k).toNat = k.toNat :=
  BitVec.toNat_setWidth_of_le (by decide)

/-! ### The obligations -/

/-- Settles O38: a skip on the state of the key, and one on its negation. -/
theorem skipsOnKey : Obligations.SkipsOnKey := by
  refine ⟨encodes_of_row 23 rfl, encodes_of_row 24 rfl, fun x s h => ⟨?_, ?_⟩⟩
  · rw [exec_skp, withKey_of_lt s _ h, skipIf_eq_ite Iff.rfl]
  · rw [exec_sknp, withKey_of_lt s _ h,
      skipIf_eq_ite (p := ¬ s.keys[(readReg s x).toNat] = true) (by simp), ite_not]

/-- Settles O39: the index is checked before the key is read. -/
theorem keyIndexAboveFifteenIsFatal : Obligations.KeyIndexAboveFifteenIsFatal :=
  fun x s h => ⟨(exec_skp x s).trans (withKey_of_ge s _ h), (exec_sknp x s).trans (withKey_of_ge s _ h)⟩

/-- Settles O41: one new value of `ST`, whose edge is the event. -/
theorem soundTimerWrite : Obligations.SoundTimerWrite := by
  refine ⟨encodes_of_row 28 rfl, fun x s => ?_⟩
  rw [exec_ldST, ← beepEvent_eq]
  rfl

/-- Settles O42: the polls that return no key. -/
theorem keyWaitHoldsPc : Obligations.KeyWaitHoldsPc :=
  ⟨encodes_of_row 26 rfl, fun x _ =>
    ⟨fun h => exec_ldVxK_of_not_awaiting x h, fun h hp => exec_ldVxK_of_pending x h hp⟩⟩

/-- Settles O43: the poll that returns a key is one write of it on the disarmed state. -/
theorem keyWaitDeliversKey : Obligations.KeyWaitDeliversKey := by
  intro x k s h hp
  obtain ⟨t, ht, hx, hregs, hadv, honly⟩ := advance_writeReg x (keyByte k) (disarmWait s)
  exact ⟨t, (exec_ldVxK_of_captured x h hp).trans ht, by rw [hx, toNat_keyByte], hregs, hadv, honly⟩

/-- Settles O44: arming (O42), a press recorded on the armed latch, delivery (O43). -/
theorem keyWaitProtocol : Obligations.KeyWaitProtocol := by
  intro x k s hr hw hk
  have harm := exec_ldVxK_of_not_awaiting x hw
  have hpress := setPressed_of_running hk true (s := finish s.pc .none (armWait s)) hr
  obtain ⟨w, hexec, hx, -, ⟨hpc, -⟩, honly⟩ := keyWaitDeliversKey x (BitVec.ofNat 4 k)
    (withOutput .nothing (recordKey (BitVec.ofNat 4 k) true (finish s.pc .none (armWait s)))) rfl rfl
  refine ⟨_, _, w, harm, rfl, rfl, hpress, rfl, hexec, ?_, hpc, by rw [honly]⟩
  rw [hx, BitVec.toNat_ofNat, Nat.mod_eq_of_lt hk]

end Sys2Proof.Machine
end

section
/-! PROOFS. Every instruction at once (spec 60_exceptions.md R171 to R174, R189; 10_state.md R26): an
instruction either raises, in the listed states, and then writes `STATUS` and the output alone, or
completes, and then changes what the access matrix lets it; and the obligations about them. -/

namespace Sys2Proof

open Sys2Proof.Machine

/-- The states in which an instruction raises a fatal condition (R173, R174). -/
def Instr.RaisesIn (i : Instr) (s : State) : Prop :=
  match i with
  | .ret => s.stack = []
  | .drw x y n => 1 ≤ n.toNat ∧
      (s.i.toNat + n.toNat - 1 > 4095 ∨
       64 * ((readReg s y).toNat % 32 + n.toNat - 1) + (readReg s x).toNat % 64 + 7 > 2047)
  | .ldB _ => s.i.toNat + 2 > 4095
  | .storeRegs x | .loadRegs x => s.i.toNat + x.toNat > 4095
  | .skp x | .sknp x => (readReg s x).toNat > 15
  | _ => False

/-- The event of an instruction that completes (R189). -/
def Instr.eventIn (i : Instr) (s : State) : Event :=
  match i with
  | .drw _ _ _ => .displayUpdated
  | .ldST x => beepEvent s.st (readReg s x)
  | _ => .none

end Sys2Proof

namespace Sys2Proof.Machine

/-- What an instruction that completes does to each piece of state it may not write (R26), what it outputs
(R189), where `PC` and return addresses come from (10_state.md R15), and that memory stays canonical
(log 3). Each default is the proof for an instruction that does not write that piece. -/
structure Completes (i : Instr) (s t : State) : Prop where
  status : t.status = s.status := by rfl
  regs : ∀ z, i.writesReg z = false → readReg t z = readReg s z := by exact fun _ _ => rfl
  index : (∀ a, i ≠ .ldI a) → (∀ x, i ≠ .addI x) → (∀ x, i ≠ .ldF x) → t.i = s.i := by
    exact fun _ _ _ => rfl
  dt : (∀ x, i ≠ .ldDT x) → t.dt = s.dt := by exact fun _ => rfl
  st : (∀ x, i ≠ .ldST x) → t.st = s.st := by exact fun _ => rfl
  stack : (∀ a, i ≠ .call a) → i ≠ .ret → t.stack = s.stack := by exact fun _ _ => rfl
  mem : (∀ x, i ≠ .ldB x) → (∀ x, i ≠ .storeRegs x) → t.mem = s.mem := by exact fun _ _ => rfl
  video : i ≠ .cls → (∀ x y n, i ≠ .drw x y n) → t.video = s.video := by exact fun _ _ => rfl
  keys : t.keys = s.keys := by rfl
  latch : (∀ x, i ≠ .ldVxK x) → t.awaiting = s.awaiting ∧ t.lastPress = s.lastPress := by
    exact fun _ => ⟨rfl, rfl⟩
  font : t.font = s.font := by rfl
  schedule : t.schedule = s.schedule := by rfl
  environment : t.environment = s.environment := by rfl
  drawCount : (∀ x nn, i ≠ .rnd x nn) → t.drawCount = s.drawCount := by exact fun _ => rfl
  output : t.output = .event (i.eventIn s) := by rfl
  nextPc : t.pc ∈ [s.pc, s.pc + 2, s.pc + 4] ∨ t.pc.toNat ≤ 4350 ∨ t.pc ∈ s.stack := by
    exact .inl (.tail _ (.head _))
  returns : ∀ a ∈ t.stack, a ∈ s.stack ∨ a = s.pc + 2 := by exact fun _ h => .inl h
  memWf : s.mem.wf = true → t.mem.wf = true := by exact id

/-- What executing `i` in `s` comes to: raising, exactly in the listed states, or completing. -/
def RaisesOrCompletes (i : Instr) (s : State) (r : Result) : Prop :=
  (i.RaisesIn s ∧ ∃ f, r = .next (withFatal f s)) ∨ (¬ i.RaisesIn s ∧ ∃ t, r = .next t ∧ Completes i s t)

section
variable {i : Instr} {s : State} {r : Result}

theorem RaisesOrCompletes.raised {f : FatalCondition} (hr : r = .next (withFatal f s)) (hi : i.RaisesIn s) :
    RaisesOrCompletes i s r :=
  .inl ⟨hi, f, hr⟩

theorem RaisesOrCompletes.completed {t : State} (hr : r = .next t) (hi : ¬ i.RaisesIn s)
    (ht : Completes i s t) : RaisesOrCompletes i s r :=
  .inr ⟨hi, t, hr, ht⟩

/-- An instruction that writes `Vx` alone before the default end. -/
theorem completes_writeReg {x : Nibble} {b : Byte} (hr : r = advance .none (writeReg x b s))
    (hi : ¬ i.RaisesIn s) (hx : ∀ z, i.writesReg z = (z == x)) (he : i.eventIn s = .none) :
    RaisesOrCompletes i s r :=
  .completed (hr.trans (advance_eq _ _)) hi
    { regs := fun z hz => readReg_writeReg_other s b (ne_of_beq_false ((hx z).symm.trans hz))
      output := congrArg Output.event he.symm }

/-- An instruction that writes `Vx`, then `VF`, before the default end. -/
theorem completes_writeRegThenFlag {x : Nibble} {b flag : Byte}
    (hr : r = advance .none (writeRegThenFlag x b flag s)) (hi : ¬ i.RaisesIn s)
    (hx : ∀ z, i.writesReg z = (z == x || z == 15)) (he : i.eventIn s = .none) :
    RaisesOrCompletes i s r := by
  obtain ⟨t, ht, -, -, hregs, -⟩ := advance_writeRegThenFlag x b flag s
  cases ht
  refine .completed (hr.trans (advance_eq _ _)) hi
    { regs := fun z hz => hregs z ?_, output := congrArg Output.event he.symm }
  simpa [hx] using hz

/-- An instruction that writes `VF`, then shifts `Vx`, before the default end. -/
theorem completes_writeFlagThenShift {x : Nibble} {flag shift : Byte → Byte}
    (hr : r = advance .none (writeFlagThenShift x flag shift s)) (hi : ¬ i.RaisesIn s)
    (hx : ∀ z, i.writesReg z = (z == x || z == 15)) (he : i.eventIn s = .none) :
    RaisesOrCompletes i s r := by
  obtain ⟨t, ht, -, -, hregs, -⟩ := advance_writeFlagThenShift x flag shift s
  cases ht
  refine .completed (hr.trans (advance_eq _ _)) hi
    { regs := fun z hz => hregs z ?_, output := congrArg Output.event he.symm }
  simpa [hx] using hz

/-- A skip writes `PC` alone. -/
theorem completes_skipIf {c : Bool} (hr : r = skipIf c s) (hi : ¬ i.RaisesIn s)
    (he : i.eventIn s = .none) : RaisesOrCompletes i s r := by
  refine .completed (hr.trans (skipIf_eq c s)) hi
    { output := congrArg Output.event he.symm, nextPc := ?_ }
  cases c
  · exact .inl (.tail _ (.head _))
  · exact .inl (.tail _ (.tail _ (.head _)))

/-- A skip on a key raises on an index above 15. -/
theorem raisesOrCompletes_withKey {x : Nibble} {c : Bool → Bool}
    (hr : r = withKey (readReg s x) s fun pressed => skipIf (c pressed) s)
    (hi : i.RaisesIn s ↔ (readReg s x).toNat > 15) (he : i.eventIn s = .none) :
    RaisesOrCompletes i s r := by
  by_cases h : (readReg s x).toNat < 16
  · exact completes_skipIf (hr.trans (withKey_of_lt s _ h)) (by rw [hi]; omega) he
  · exact .raised (hr.trans (withKey_of_ge s _ (by omega))) (by rw [hi]; omega)

/-- An access of `n + 1` bytes at `I` raises if they do not fit. -/
theorem raisesOrCompletes_checkMem {n : Nat} {t : State}
    (hr : r = checkMem s.i.toNat (n + 1) s (.next t)) (hi : i.RaisesIn s ↔ s.i.toNat + n > 4095)
    (ht : s.i.toNat + (n + 1) ≤ 4096 → Completes i s t) : RaisesOrCompletes i s r := by
  obtain ⟨hfit, hgo⟩ | ⟨-, hout, hgo⟩ := checkMem_cases s.i.toNat (n + 1) s (.next t)
  · exact .completed (hr.trans hgo) (by rw [hi]; omega) (ht (by omega))
  · exact .raised (hr.trans hgo) (by rw [hi]; omega)

end

/-- The state after an instruction that writes the register file alone before the default end. -/
theorem completes_withRegs {i : Instr} {s : State} {v : Vector Byte 16} (he : i.eventIn s = .none)
    (hv : ∀ z, i.writesReg z = false → v[z.toNat]'z.isLt = readReg s z) :
    Completes i s (finish (s.pc + 2) .none { s with v := v }) :=
  { regs := hv, output := congrArg Output.event he.symm }

/-- A poll arms, waits or delivers; it never raises. -/
theorem completes_ldVxK (x : Nibble) (s : State) :
    RaisesOrCompletes (.ldVxK x) s (exec (.ldVxK x) s) := by
  cases hw : s.awaiting with
  | false =>
    exact .completed (exec_ldVxK_of_not_awaiting x hw) id
      { latch := fun h => absurd rfl (h x), nextPc := .inl (.head _) }
  | true =>
    cases hp : s.lastPress with
    | none => exact .completed (exec_ldVxK_of_pending x hw hp) id { nextPc := .inl (.head _) }
    | some k =>
      exact .completed (exec_ldVxK_of_captured x hw hp) id
        { regs := fun z hz => readReg_writeReg_other _ _ (ne_of_beq_false hz)
          latch := fun h => absurd rfl (h x) }

/-- Both checks of a draw come before its first write. -/
theorem raisesOrCompletes_drw (x y n : Nibble) (s : State) :
    RaisesOrCompletes (.drw x y n) s (exec (.drw x y n) s) := by
  rw [exec_drw]
  obtain ⟨hfit, hgo⟩ | ⟨hpos, hout, hgo⟩ := checkMem_cases s.i.toNat n.toNat s _
  · rw [hgo]
    obtain ⟨hfit', hgo'⟩ | ⟨hpos, hout, hgo'⟩ :=
      checkVideo_cases (originColumn (readReg s x)) (originRow (readReg s y)) n.toNat s _
    · refine .completed hgo' ?_
        { regs := fun z hz => readReg_writeReg_other _ _ (ne_of_beq_false hz)
          video := fun _ h => absurd rfl (h x y n) }
      rintro ⟨hpos, hmem | hvideo⟩
      · omega
      · exact absurd hfit' (not_or.mpr ⟨by omega, Nat.not_le.mpr hvideo⟩)
    · exact .raised hgo' ⟨hpos, .inr hout⟩
  · exact .raised hgo ⟨hpos, .inl (by omega)⟩

theorem toNat_zext12_le (nnn : Addr12) : (zext12 nnn).toNat ≤ 4350 := by
  have := nnn.isLt
  rw [toNat_zext12]
  omega

/-- The largest jump: `0xFF + 0xFFF` (10_state.md R15). -/
theorem toNat_zext8_add_zext12_le (b : Byte) (nnn : Addr12) : (zext8 b + zext12 nnn).toNat ≤ 4350 := by
  have := b.isLt
  have := nnn.isLt
  rw [toNat_zext8_add_zext12]
  omega

/-- Every instruction in every state. -/
theorem exec_cases (i : Instr) (s : State) : RaisesOrCompletes i s (exec i s) := by
  cases i with
  | cls => exact .completed rfl id { video := fun h => absurd rfl h }
  | ret =>
    cases hs : s.stack with
    | nil => exact .raised (exec_ret_of_stack_nil hs) hs
    | cons a rest =>
      exact .completed (exec_ret_of_stack_cons hs) (by simp [Instr.RaisesIn, hs])
        { stack := fun _ h => absurd rfl h
          nextPc := .inr (.inr (hs ▸ .head _))
          returns := fun a ha => .inl (hs ▸ .tail _ ha) }
  | jp nnn =>
    exact .completed (exec_jp nnn s) id
      { nextPc := .inr (.inl (toNat_zext12_le nnn)) }
  | call nnn =>
    exact .completed (exec_call nnn s) id
      { stack := fun h => absurd rfl (h nnn)
        nextPc := .inr (.inl (toNat_zext12_le nnn))
        returns := fun a ha => (List.mem_cons.mp ha).symm }
  | seImm x nn => exact completes_skipIf (exec_seImm x nn s) id rfl
  | sneImm x nn => exact completes_skipIf (exec_sneImm x nn s) id rfl
  | seReg x y => exact completes_skipIf (exec_seReg x y s) id rfl
  | ldImm x nn => exact completes_writeReg (exec_ldImm x nn s) id (fun _ => rfl) rfl
  | addImm x nn => exact completes_writeReg (exec_addImm x nn s) id (fun _ => rfl) rfl
  | ldReg x y => exact completes_writeReg (exec_ldReg x y s) id (fun _ => rfl) rfl
  | orReg x y => exact completes_writeReg (exec_orReg x y s) id (fun _ => rfl) rfl
  | andReg x y => exact completes_writeReg (exec_andReg x y s) id (fun _ => rfl) rfl
  | xorReg x y => exact completes_writeReg (exec_xorReg x y s) id (fun _ => rfl) rfl
  | addReg x y => exact completes_writeRegThenFlag (exec_addReg x y s) id (fun _ => rfl) rfl
  | subReg x y => exact completes_writeRegThenFlag (exec_subReg x y s) id (fun _ => rfl) rfl
  | shr x y => exact completes_writeFlagThenShift (exec_shr x y s) id (fun _ => rfl) rfl
  | subn x y => exact completes_writeRegThenFlag (exec_subn x y s) id (fun _ => rfl) rfl
  | shl x y => exact completes_writeFlagThenShift (exec_shl x y s) id (fun _ => rfl) rfl
  | sneReg x y => exact completes_skipIf (exec_sneReg x y s) id rfl
  | ldI nnn => exact .completed (exec_ldI nnn s) id { index := fun h => absurd rfl (h nnn) }
  | jpV0 nnn =>
    exact .completed (exec_jpV0 nnn s) id
      { nextPc := .inr (.inl (toNat_zext8_add_zext12_le (readReg s 0) nnn)) }
  | rnd x nn =>
    exact .completed (exec_rnd x nn s) id
      { regs := fun z hz => readReg_writeReg_other s _ (ne_of_beq_false hz)
        drawCount := fun h => absurd rfl (h x nn) }
  | drw x y n => exact raisesOrCompletes_drw x y n s
  | skp x => exact raisesOrCompletes_withKey (c := id) (exec_skp x s) Iff.rfl rfl
  | sknp x => exact raisesOrCompletes_withKey (c := not) (exec_sknp x s) Iff.rfl rfl
  | ldVxDT x => exact completes_writeReg (exec_ldVxDT x s) id (fun _ => rfl) rfl
  | ldVxK x => exact completes_ldVxK x s
  | ldDT x => exact .completed (exec_ldDT x s) id { dt := fun h => absurd rfl (h x) }
  | ldST x => exact .completed (exec_ldST x s) id { st := fun h => absurd rfl (h x) }
  | addI x => exact .completed (exec_addI x s) id { index := fun _ h => absurd rfl (h x) }
  | ldF x => exact .completed (exec_ldF x s) id { index := fun _ _ h => absurd rfl (h x) }
  | ldB x =>
    exact raisesOrCompletes_checkMem (exec_ldB x s) Iff.rfl fun hfit =>
      { mem := fun h => absurd rfl (h x), memWf := fun hm => Memory.writeBytes_wf _ hm hfit }
  | storeRegs x =>
    exact raisesOrCompletes_checkMem (exec_storeRegs x s) Iff.rfl fun hfit =>
      { mem := fun _ h => absurd rfl (h x)
        memWf := fun hm => Memory.writeBytes_wf _ hm (by rw [regsUpTo_length]; exact hfit) }
  | loadRegs x =>
    exact raisesOrCompletes_checkMem (exec_loadRegs x s) Iff.rfl fun _ =>
      completes_withRegs rfl fun z hz =>
        (loadedRegs_getElem s x z).trans (if_neg (of_decide_eq_false hz))

theorem exec_next_cases {i : Instr} {s t : State} (h : exec i s = .next t) :
    (i.RaisesIn s ∧ ∃ f, t = withFatal f s) ∨ (¬ i.RaisesIn s ∧ Completes i s t) := by
  obtain ⟨hi, f, hf⟩ | ⟨hi, u, hu, hc⟩ := exec_cases i s
  · rw [hf] at h
    cases h
    exact .inl ⟨hi, f, rfl⟩
  · rw [hu] at h
    cases h
    exact .inr ⟨hi, hc⟩

/-! ### The obligations -/

/-- Settles O10: raising and completing both answer a next state. -/
theorem everyInstructionAnswersNext : Obligations.EveryInstructionAnswersNext := by
  intro i s
  obtain ⟨-, f, hf⟩ | ⟨-, t, ht, -⟩ := exec_cases i s
  · exact ⟨_, hf⟩
  · exact ⟨t, ht⟩

/-- Settles O9: an instruction that completes leaves the core running, so only raising halts it. -/
theorem fatalConditionsArePrecise : Obligations.FatalConditionsArePrecise := by
  intro i s t hr h ht
  obtain ⟨-, f, rfl⟩ | ⟨-, hc⟩ := exec_next_cases h
  · rfl
  · exact absurd (hc.status.trans hr) ht

/-- Settles O11: raising halts a running core and completing does not. -/
theorem fatalExactlyWhenListed : Obligations.FatalExactlyWhenListed := by
  intro i s t hr h
  have hiff : ¬ t.Running ↔ i.RaisesIn s := by
    obtain ⟨hi, f, rfl⟩ | ⟨hi, hc⟩ := exec_next_cases h
    · exact iff_of_true (fun hrun => nomatch hrun) hi
    · exact iff_of_false (not_not.mpr (hc.status.trans hr)) hi
  rw [hiff]
  cases i <;> rfl

/-- Settles O52: raising writes no piece of the matrix, and completing keeps to it. -/
theorem instructionsWriteOnlyTheirState : Obligations.InstructionsWriteOnlyTheirState := by
  intro i s t h
  obtain ⟨-, f, rfl⟩ | ⟨-, hc⟩ := exec_next_cases h
  · exact ⟨fun _ _ => rfl, fun _ _ _ => rfl, fun _ => rfl, fun _ => rfl, fun _ _ => rfl, fun _ _ => rfl,
      fun _ _ => rfl, rfl, fun _ => ⟨rfl, rfl⟩, rfl, rfl, rfl, fun _ => rfl⟩
  · exact ⟨hc.regs, hc.index, hc.dt, hc.st, hc.stack, hc.mem, hc.video, hc.keys, hc.latch, hc.font,
      hc.schedule, hc.environment, hc.drawCount⟩

/-- Settles O53: raising outputs `None`, and completing the event of the table. -/
theorem eventOfEveryInstruction : Obligations.EventOfEveryInstruction := by
  intro i s t hr h
  obtain ⟨-, f, rfl⟩ | ⟨-, hc⟩ := exec_next_cases h
  · exact ⟨fun _ => rfl, fun hrun => nomatch hrun⟩
  · refine ⟨fun ht => absurd (hc.status.trans hr) ht, fun _ => hc.output.trans ?_⟩
    cases i with
    | ldST x => exact congrArg Output.event (beepEvent_eq s.st (readReg s x))
    | _ => rfl

/-- The beep edge as the output of an operation that takes `ST` from `before` to `after` (R187). -/
theorem beepEvent_edges (before after : Byte) :
    (Output.event (beepEvent before after) = .event .startBeep ↔ before = 0 ∧ after ≠ 0) ∧
    (Output.event (beepEvent before after) = .event .stopBeep ↔ before ≠ 0 ∧ after = 0) := by
  simp only [beepEvent, Output.event.injEq]
  split
  · next h => exact ⟨iff_of_true rfl h, iff_of_false nofun fun h' => h'.1 h.1⟩
  · next h =>
    split
    · next h' => exact ⟨iff_of_false nofun h, iff_of_true rfl h'⟩
    · next h' => exact ⟨iff_of_false nofun h, iff_of_false nofun h'⟩

/-- An instruction other than `Fx18` keeps `ST` and emits no beep. -/
theorem no_beep {i : Instr} {s t : State} (h : exec i s = .next t) (hi : ∀ x, i ≠ .ldST x) :
    t.st = s.st ∧ (t.output = .event .none ∨ t.output = .event .displayUpdated) := by
  obtain ⟨-, f, rfl⟩ | ⟨-, hc⟩ := exec_next_cases h
  · exact ⟨rfl, .inl rfl⟩
  · refine ⟨hc.st hi, ?_⟩
    rw [hc.output]
    cases i with
    | ldST x => exact absurd rfl (hi x)
    | drw x y n => exact .inr rfl
    | _ => exact .inl rfl

/-- Settles O54: `Fx18` and `Tick` output the edge of their write, and nothing else writes `ST`. -/
theorem beepEventsAreTheEdges : Obligations.BeepEventsAreTheEdges := by
  refine ⟨fun i s t h => ?_, fun s hr => ?_⟩
  · by_cases hi : ∃ x, i = .ldST x
    · obtain ⟨x, rfl⟩ := hi
      rw [exec_ldST, advance_eq] at h
      cases h
      exact beepEvent_edges s.st (readReg s x)
    · obtain ⟨hst, hout⟩ := no_beep h (not_exists.mp hi)
      rw [hst]
      obtain hout | hout := hout <;> simp [hout]
  · rw [tick_of_running hr, tickEvent_of_running hr]
    exact beepEvent_edges s.st (countDown s.st)

end Sys2Proof.Machine
end

section
/-! PROOFS. What every operation keeps and that it answers (spec 10_state.md R15; 60_exceptions.md R184,
R197): the invariant of the machine as a step lemma over operations and instructions, the two refused calls,
and the obligations about them. -/

namespace Sys2Proof.Machine

/-! ### The invariant looks at memory, `PC`, the stack, the latch and `STATUS` -/

theorem atKeyWait_congr {s t : State} (hm : t.mem = s.mem) (hpc : t.pc = s.pc) :
    t.atKeyWait = s.atKeyWait := by
  simp only [State.atKeyWait, fetch, fetchWord, hm, hpc]

/-- Where an instruction is fetched, a key wait is an `Fx0A`. -/
theorem exists_ldVxK_of_atKeyWait {s : State} {i : Instr} (hp : s.pc.toNat ≤ 4094)
    (hd : decode (fetchWord s) = .ok i) (h : s.atKeyWait = true) : ∃ x, i = .ldVxK x := by
  simp only [State.atKeyWait, fetch_of_fits hp, hd] at h
  split at h
  · next x hx => exact ⟨x, Except.ok.inj hx⟩
  · cases h

theorem atKeyWait_of_decodes {s : State} {x : Nibble} (hp : s.pc.toNat ≤ 4094)
    (hd : decode (fetchWord s) = .ok (.ldVxK x)) : s.atKeyWait = true := by
  simp only [State.atKeyWait, fetch_of_fits hp, hd]

/-- An operation that keeps memory, `PC` and the stack, arms no wait and does not start the core keeps the
invariant. -/
theorem inv_of_frame {s t : State} (h : s.Inv) (hm : t.mem = s.mem) (hpc : t.pc = s.pc)
    (hst : t.stack = s.stack) (hw : t.awaiting = s.awaiting) (hr : t.Running → s.Running) : t.Inv where
  memWf := by rw [hm]; exact h.memWf
  pcBounded := by rw [State.PcBounded, hpc, hst]; exact h.pcBounded
  waitHeld := fun hwait hrun => by
    rw [atKeyWait_congr hm hpc]
    exact h.waitHeld (hw ▸ hwait) (hr hrun)

/-! ### An instruction keeps the invariant -/

/-- `PC` and the return addresses after an instruction that completes (R15). -/
theorem pcBounded_of_completes {i : Instr} {s t : State} (hp : s.pc.toNat ≤ 4094) (h : s.PcBounded)
    (hc : Completes i s t) : t.PcBounded := by
  obtain ⟨-, hstack⟩ := h
  have h2 : (s.pc + 2).toNat = s.pc.toNat + 2 := by bv_omega
  have h4 : (s.pc + 4).toNat = s.pc.toNat + 4 := by bv_omega
  refine ⟨?_, fun a ha => ?_⟩
  · obtain hnear | hle | hmem := hc.nextPc
    · simp only [List.mem_cons, List.not_mem_nil, or_false] at hnear
      obtain e | e | e := hnear
      · rw [e]; omega
      · rw [e, h2]; omega
      · rw [e, h4]; omega
    · exact hle
    · exact (hstack _ hmem).trans (by decide)
  · obtain hmem | rfl := hc.returns a ha
    · exact hstack a hmem
    · rw [h2]; omega

/-- A wait that is armed after an `Fx0A` has kept `PC`. -/
theorem ldVxK_pc_of_awaiting {x : Nibble} {s t : State} (h : exec (.ldVxK x) s = .next t)
    (ht : t.awaiting = true) : t.pc = s.pc := by
  cases hw : s.awaiting with
  | false =>
    rw [exec_ldVxK_of_not_awaiting x hw] at h
    cases h
    rfl
  | true =>
    cases hp : s.lastPress with
    | none =>
      rw [exec_ldVxK_of_pending x hw hp] at h
      cases h
      rfl
    | some k =>
      rw [exec_ldVxK_of_captured x hw hp, advance_eq] at h
      cases h
      cases ht

/-- The key wait after an instruction that completes: an `Fx0A` that waits stays, and no other instruction
is executed while a wait is armed (R197). -/
theorem waitHeld_of_completes {i : Instr} {s t : State} (hr : s.Running) (hp : s.pc.toNat ≤ 4094)
    (hd : decode (fetchWord s) = .ok i) (h : s.WaitHeld) (hexec : exec i s = .next t)
    (hc : Completes i s t) : t.WaitHeld := by
  intro hwait _
  by_cases hi : ∃ x, i = .ldVxK x
  · obtain ⟨x, rfl⟩ := hi
    rw [atKeyWait_congr (hc.mem nofun nofun) (ldVxK_pc_of_awaiting hexec hwait)]
    exact atKeyWait_of_decodes hp hd
  · have hs : s.awaiting = true := (hc.latch (not_exists.mp hi)).1 ▸ hwait
    exact absurd (exists_ldVxK_of_atKeyWait hp hd (h hs hr)) hi

theorem inv_withFatal {s : State} (f : FatalCondition) (h : s.Inv) : (withFatal f s).Inv :=
  inv_of_frame h rfl rfl rfl rfl nofun

theorem exec_inv {i : Instr} {s t : State} (hr : s.Running) (hp : s.pc.toNat ≤ 4094)
    (hd : decode (fetchWord s) = .ok i) (h : s.Inv) (hexec : exec i s = .next t) : t.Inv := by
  obtain ⟨-, f, rfl⟩ | ⟨-, hc⟩ := exec_next_cases hexec
  · exact inv_withFatal f h
  · exact ⟨hc.memWf h.memWf, pcBounded_of_completes hp h.pcBounded hc,
      waitHeld_of_completes hr hp hd h.waitHeld hexec hc⟩

/-! ### Every operation keeps the invariant -/

theorem withOutput_inv {s : State} (o : Output) (h : s.Inv) : (withOutput o s).Inv :=
  inv_of_frame h rfl rfl rfl rfl id

theorem coreStep_inv {s t : State} (h : s.Inv) (ht : coreStep s = .next t) : t.Inv := by
  obtain ⟨-, e⟩ | ⟨-, -, e⟩ | ⟨-, -, -, e⟩ | ⟨i, hr, hp, hd, e⟩ := coreStep_cases s
  · cases e.symm.trans ht
    exact withOutput_inv _ h
  · cases e.symm.trans ht
    exact inv_withFatal _ h
  · cases e.symm.trans ht
    exact inv_withFatal _ h
  · exact exec_inv hr hp hd h (e.symm.trans ht)

theorem tick_inv {s : State} (h : s.Inv) : (tick s).Inv := by
  by_cases hr : s.Running
  · rw [tick_of_running hr]
    exact inv_of_frame h rfl rfl rfl rfl id
  · rw [tick_of_halted (not_running_iff_halted.mp hr)]
    exact withOutput_inv _ h

theorem iterate_tick_inv (k : Nat) {s : State} (h : s.Inv) : (tick^[k] s).Inv := by
  induction k with
  | zero => exact h
  | succ k ih =>
    rw [Function.iterate_succ_apply']
    exact tick_inv ih

/-- Every `Step` answers a next state: halted, raising or executing. -/
theorem exists_coreStep (s : State) : ∃ t, coreStep s = .next t := by
  obtain ⟨-, e⟩ | ⟨-, -, e⟩ | ⟨-, -, -, e⟩ | ⟨i, -, -, -, e⟩ := coreStep_cases s
  · exact ⟨_, e⟩
  · exact ⟨_, e⟩
  · exact ⟨_, e⟩
  · obtain ⟨t, ht⟩ := everyInstructionAnswersNext i s
    exact ⟨t, e.trans ht⟩

theorem stepWithDecay_inv {k : Nat} {s t : State} (h : s.Inv) (ht : stepWithDecay k s = .next t) :
    t.Inv := by
  obtain ⟨u, hu⟩ := exists_coreStep s
  have hinv := coreStep_inv h hu
  by_cases hr : u.Running
  · cases (stepWithDecay_of_running k hu hr).symm.trans ht
    rw [decayTicks_snd]
    exact withOutput_inv _ (iterate_tick_inv k hinv)
  · cases (stepWithDecay_of_not_running k hu hr).symm.trans ht
    exact hinv

theorem setPressed_inv {k : Nat} {p : Bool} {s t : State} (h : s.Inv) (ht : setPressed k p s = .next t) :
    t.Inv := by
  by_cases hk : k < 16
  · by_cases hr : s.Running
    · cases (setPressed_of_running hk p hr).symm.trans ht
      exact inv_of_frame h rfl rfl rfl rfl id
    · cases (setPressed_of_halted hk p (not_running_iff_halted.mp hr)).symm.trans ht
      exact withOutput_inv _ h
  · cases (setPressed_of_outside (by omega) p s).symm.trans ht

theorem loadProgram_inv {bytes : List Byte} {s t : State} (h : s.Inv)
    (ht : loadProgram bytes s = .next t) : t.Inv := by
  by_cases hr : s.Running
  · cases hj : justReset s with
    | false => cases (loadProgram_of_not_justReset bytes hr hj).symm.trans ht
    | true =>
      by_cases hl : bytes.length ≤ 3584
      · cases (loadProgram_of_fits hr hj hl).symm.trans ht
        have hwait : s.awaiting = false := justReset_awaiting hj
        exact
          { memWf := Memory.writeBytes_wf bytes h.memWf (by rw [Config.memSize]; omega)
            pcBounded := ⟨(by decide : (0x200 : Word).toNat ≤ 4350), h.pcBounded.2⟩
            waitHeld := fun hw _ => absurd (hwait.symm.trans hw) nofun }
      · cases (loadProgram_of_oversize hr hj (Nat.not_le.mp hl)).symm.trans ht
        exact withOutput_inv _ h
  · cases (loadProgram_of_halted bytes (not_running_iff_halted.mp hr)).symm.trans ht
    exact withOutput_inv _ h

theorem resetFrom_inv (s : State) : (resetFrom s).Inv where
  memWf := fontMemory_wf s.font
  pcBounded := ⟨(by decide : (0 : Word).toNat ≤ 4350), nofun⟩
  waitHeld := nofun

/-- One operation of the environment keeps the invariant. -/
theorem perform_inv {op : Operation} {s t : State} (h : s.Inv) (ht : perform op s = .next t) :
    t.Inv := by
  cases op with
  | reset =>
    cases ht
    exact resetFrom_inv s
  | loadProgram bytes => exact loadProgram_inv h ht
  | step => exact coreStep_inv h ht
  | tick =>
    cases ht
    exact tick_inv h
  | stepWithDecay k => exact stepWithDecay_inv h ht
  | setPressed k p => exact setPressed_inv h ht
  | readVideo =>
    cases ht
    exact withOutput_inv _ h
  | readStatus =>
    cases ht
    exact withOutput_inv _ h

/-! ### The obligations -/

/-- Settles O56: taking the next operation touches nothing the invariant looks at, and performing it keeps
the invariant. -/
theorem stepKeepsMachineInvariant : Obligations.StepKeepsMachineInvariant := by
  intro s t h ht
  obtain ⟨op, s', hnext⟩ := exists_comesNext s
  have h' : s'.Inv := inv_of_frame h (comesNext_mem hnext) (comesNext_pc hnext) (comesNext_stack hnext)
    (comesNext_awaiting hnext) fun hr => (comesNext_status hnext).symm.trans hr
  exact perform_inv h' ((step_of_comesNext hnext).symm.trans ht)

/-- Settles O58: by the operation; the two refusals are the only outcomes that are no next state. -/
theorem everyAllowedOperationAnswersNext : Obligations.EveryAllowedOperationAnswersNext := by
  intro op s s' hnext
  rw [step_of_comesNext hnext]
  refine ⟨fun k p hop hk => ?_, fun bytes hop hr hj => ?_, fun hkey hload => ?_⟩
  · rw [hop]
    exact setPressed_of_outside hk p s'
  · rw [hop]
    exact loadProgram_of_not_justReset bytes hr hj
  cases op with
  | reset | tick | readVideo | readStatus => exact ⟨_, rfl⟩
  | step => exact exists_coreStep s'
  | stepWithDecay k =>
    obtain ⟨t, ht⟩ := exists_coreStep s'
    by_cases hr : t.Running
    · exact ⟨_, stepWithDecay_of_running k ht hr⟩
    · exact ⟨_, stepWithDecay_of_not_running k ht hr⟩
  | setPressed k p =>
    by_cases hr : s'.Running
    · exact ⟨_, setPressed_of_running (hkey k p rfl) p hr⟩
    · exact ⟨_, setPressed_of_halted (hkey k p rfl) p (not_running_iff_halted.mp hr)⟩
  | loadProgram bytes =>
    by_cases hr : s'.Running
    · have hj := (hload bytes rfl).resolve_left fun hh => not_running_iff_halted.mpr hh hr
      by_cases hl : bytes.length ≤ 3584
      · exact ⟨_, loadProgram_of_fits hr hj hl⟩
      · exact ⟨_, loadProgram_of_oversize hr hj (Nat.not_le.mp hl)⟩
    · exact ⟨_, loadProgram_of_halted bytes (not_running_iff_halted.mp hr)⟩

end Sys2Proof.Machine
end

section
/-! PROOFS. Orders of operations as runs (spec 60_exceptions.md R184, log 4): no operation looks at what the
environment performs next, so a schedule and a free environment are performed as they stand, and the
obligation about them. -/

namespace Sys2Proof.Machine

/-! ### What the environment performs next, and outcomes that differ in it alone -/

/-- The state whose environment performs `ops` next and then goes on as `e`. -/
def withPlan (ops : List Operation) (e : Environment) (s : State) : State :=
  { s with schedule := ops, environment := e }

/-- The outcome with its next state, if any, changed by `f`. -/
def mapNext (f : State → State) : Result → Result
  | .next t => .next (f t)
  | .fault r => .fault r
  | .refused r => .refused r

section
variable (ops : List Operation) (e : Environment) (s : State)

theorem skipIf_withPlan (c : Bool) :
    skipIf c (withPlan ops e s) = mapNext (withPlan ops e) (skipIf c s) := by
  cases c <;> rfl

variable {ops e s} in
theorem checkMem_withPlan {base n : Nat} {go go' : Result} (h : go' = mapNext (withPlan ops e) go) :
    checkMem base n (withPlan ops e s) go' = mapNext (withPlan ops e) (checkMem base n s go) := by
  simp only [checkMem, h]
  cases firstOutside base n <;> rfl

variable {ops e s} in
theorem checkVideo_withPlan {x0 y0 n : Nat} {go go' : Result} (h : go' = mapNext (withPlan ops e) go) :
    checkVideo x0 y0 n (withPlan ops e s) go' =
      mapNext (withPlan ops e) (checkVideo x0 y0 n s go) := by
  simp only [checkVideo, h]
  cases spriteOutside x0 y0 n <;> rfl

variable {ops e s} in
theorem withKey_withPlan {k : Byte} {go go' : Bool → Result}
    (h : ∀ b, go' b = mapNext (withPlan ops e) (go b)) :
    withKey k (withPlan ops e s) go' = mapNext (withPlan ops e) (withKey k s go) := by
  by_cases hk : k.toNat < 16
  · rw [withKey_of_lt _ _ hk, withKey_of_lt _ _ hk, h]
    rfl
  · rw [withKey_of_ge _ _ (by omega), withKey_of_ge _ _ (by omega)]
    rfl

theorem exec_ret_withPlan : exec .ret (withPlan ops e s) = mapNext (withPlan ops e) (exec .ret s) := by
  cases hs : s.stack with
  | nil =>
    rw [exec_ret_of_stack_nil hs, exec_ret_of_stack_nil (s := withPlan ops e s) hs]
    rfl
  | cons a rest =>
    rw [exec_ret_of_stack_cons hs, exec_ret_of_stack_cons (s := withPlan ops e s) hs]
    rfl

theorem exec_ldVxK_withPlan (x : Nibble) :
    exec (.ldVxK x) (withPlan ops e s) = mapNext (withPlan ops e) (exec (.ldVxK x) s) := by
  cases hw : s.awaiting with
  | false =>
    rw [exec_ldVxK_of_not_awaiting x hw, exec_ldVxK_of_not_awaiting (s := withPlan ops e s) x hw]
    rfl
  | true =>
    cases hp : s.lastPress with
    | none =>
      rw [exec_ldVxK_of_pending x hw hp, exec_ldVxK_of_pending (s := withPlan ops e s) x hw hp]
      rfl
    | some k =>
      rw [exec_ldVxK_of_captured x hw hp, exec_ldVxK_of_captured (s := withPlan ops e s) x hw hp]
      rfl

/-- No instruction looks at what the environment performs next. -/
theorem exec_withPlan (i : Instr) :
    exec i (withPlan ops e s) = mapNext (withPlan ops e) (exec i s) := by
  cases i with
  | ret => exact exec_ret_withPlan ops e s
  | ldVxK x => exact exec_ldVxK_withPlan ops e s x
  | seImm | sneImm | seReg | sneReg => exact skipIf_withPlan ops e s _
  | ldB | storeRegs | loadRegs => exact checkMem_withPlan rfl
  | drw => exact checkMem_withPlan (checkVideo_withPlan rfl)
  | skp => exact withKey_withPlan fun b => skipIf_withPlan ops e s b
  | sknp => exact withKey_withPlan fun b => skipIf_withPlan ops e s (!b)
  | _ => rfl

theorem coreStep_withPlan :
    coreStep (withPlan ops e s) = mapNext (withPlan ops e) (coreStep s) := by
  obtain ⟨h, hs⟩ | ⟨h, hp, hs⟩ | ⟨h, hp, hd, hs⟩ | ⟨i, h, hp, hd, hs⟩ := coreStep_cases s
  · rw [hs, coreStep_of_halted (s := withPlan ops e s) h]
    rfl
  · rw [hs, coreStep_of_outside (s := withPlan ops e s) h hp]
    rfl
  · rw [hs, coreStep_of_not_decodes (s := withPlan ops e s) h hp hd]
    rfl
  · rw [hs, coreStep_of_decodes (s := withPlan ops e s) h hp hd, exec_withPlan]

theorem tick_withPlan : tick (withPlan ops e s) = withPlan ops e (tick s) := by
  by_cases h : s.Running
  · rw [tick_of_running h, tick_of_running (s := withPlan ops e s) h,
      tickEvent_of_running h, tickEvent_of_running (s := withPlan ops e s) h]
    rfl
  · rw [tick_of_halted (not_running_iff_halted.mp h),
      tick_of_halted (s := withPlan ops e s) (not_running_iff_halted.mp h)]
    rfl

theorem tickEvent_withPlan : tickEvent (withPlan ops e s) = tickEvent s := rfl

theorem decayTicks_withPlan (d : Event) (k : Nat) :
    decayTicks d k (withPlan ops e s) =
      ((decayTicks d k s).1, withPlan ops e (decayTicks d k s).2) := by
  induction k generalizing d s with
  | zero => rfl
  | succ k ih => rw [decayTicks, decayTicks, tick_withPlan, tickEvent_withPlan, ih]

theorem stepWithDecay_withPlan (k : Nat) :
    stepWithDecay k (withPlan ops e s) = mapNext (withPlan ops e) (stepWithDecay k s) := by
  obtain ⟨t, ht⟩ := exists_coreStep s
  have ht' : coreStep (withPlan ops e s) = .next (withPlan ops e t) := by
    rw [coreStep_withPlan, ht]
    rfl
  by_cases hr : t.Running
  · rw [stepWithDecay_of_running k ht hr, stepWithDecay_of_running k ht' hr, decayTicks_withPlan]
    rfl
  · rw [stepWithDecay_of_not_running k ht hr, stepWithDecay_of_not_running k ht' hr]
    rfl

theorem setPressed_withPlan (k : Nat) (p : Bool) :
    setPressed k p (withPlan ops e s) = mapNext (withPlan ops e) (setPressed k p s) := by
  by_cases hk : k < 16
  · by_cases hr : s.Running
    · rw [setPressed_of_running hk p hr, setPressed_of_running (s := withPlan ops e s) hk p hr]
      rfl
    · have hh := not_running_iff_halted.mp hr
      rw [setPressed_of_halted hk p hh, setPressed_of_halted (s := withPlan ops e s) hk p hh]
      rfl
  · rw [setPressed_of_outside (by omega) p s, setPressed_of_outside (by omega) p]
    rfl

theorem justReset_withPlan : justReset (withPlan ops e s) = justReset s := by
  exact decide_eq_decide.mpr
    ⟨fun h => congrArg (withPlan s.schedule s.environment) h, fun h => congrArg (withPlan ops e) h⟩

theorem loadProgram_withPlan (bytes : List Byte) :
    loadProgram bytes (withPlan ops e s) = mapNext (withPlan ops e) (loadProgram bytes s) := by
  have hj' := justReset_withPlan ops e s
  by_cases hr : s.Running
  · cases hj : justReset s with
    | false =>
      rw [hj] at hj'
      rw [loadProgram_of_not_justReset bytes hr hj,
        loadProgram_of_not_justReset (s := withPlan ops e s) bytes hr hj']
      rfl
    | true =>
      rw [hj] at hj'
      by_cases hl : bytes.length ≤ 3584
      · rw [loadProgram_of_fits hr hj hl, loadProgram_of_fits (s := withPlan ops e s) hr hj' hl]
        rfl
      · rw [loadProgram_of_oversize hr hj (Nat.not_le.mp hl),
          loadProgram_of_oversize (s := withPlan ops e s) hr hj' (Nat.not_le.mp hl)]
        rfl
  · have hh := not_running_iff_halted.mp hr
    rw [loadProgram_of_halted bytes hh, loadProgram_of_halted (s := withPlan ops e s) bytes hh]
    rfl

/-- No operation looks at what the environment performs after it. -/
theorem perform_withPlan (op : Operation) :
    perform op (withPlan ops e s) = mapNext (withPlan ops e) (perform op s) := by
  cases op with
  | reset | readVideo | readStatus => rfl
  | loadProgram bytes => exact loadProgram_withPlan ops e s bytes
  | step => exact coreStep_withPlan ops e s
  | tick => exact congrArg Host.Outcome.next (tick_withPlan ops e s)
  | stepWithDecay k => exact stepWithDecay_withPlan ops e s k
  | setPressed k p => exact setPressed_withPlan ops e s k p

end

section
variable {op : Operation} {s t : State} (h : perform op s = .next t)
include h

theorem perform_withPlan_next (ops : List Operation) (e : Environment) :
    perform op (withPlan ops e s) = .next (withPlan ops e t) := by
  rw [perform_withPlan, h]
  rfl

/-- No operation changes what the environment performs after it. -/
theorem perform_keeps_plan : t = withPlan s.schedule s.environment t :=
  Host.Outcome.next.inj (h.symm.trans (perform_withPlan_next h s.schedule s.environment))

end

/-! ### Runs -/

theorem run_succ_of_step {s t : State} (k : Nat) (h : step s = .next t) :
    core.run (k + 1) s = core.run k t := by
  simp only [Host.Core.run, show core.step s = .next t from h]

theorem performAll_cons {op : Operation} {ops : List Operation} {s u : State}
    (h : performAll (op :: ops) s = .next u) :
    ∃ t, perform op s = .next t ∧ performAll ops t = .next u := by
  cases ht : perform op s with
  | next t => exact ⟨t, rfl, by simpa [performAll, ht] using h⟩
  | fault f => simp [performAll, ht] at h
  | refused r => simp [performAll, ht] at h

/-- A schedule is performed in its order. -/
theorem run_schedule (ops : List Operation) (s t : State) (hs : s.schedule = [])
    (h : performAll ops s = .next t) : core.run ops.length { s with schedule := ops } = .next t := by
  induction ops generalizing s with
  | nil =>
    cases h
    have hsame : { t with schedule := [] } = t := by rw [← hs]
    exact congrArg Host.Outcome.next hsame
  | cons op ops ih =>
    obtain ⟨u, hu, hops⟩ := performAll_cons h
    have hplan := perform_keeps_plan hu
    have hstep : step { s with schedule := op :: ops } = .next { u with schedule := ops } := by
      rw [step_of_comesNext (.inl ⟨ops, rfl, rfl⟩)]
      refine (perform_withPlan_next hu ops s.environment).trans ?_
      rw [hplan]
      rfl
    rw [List.length_cons, run_succ_of_step _ hstep]
    exact ih u (by rw [hplan]; exact hs) hops

/-- A free environment performs its values in their order. -/
theorem run_free (n k : Nat) (s t : State) (hs : s.schedule = [])
    (h : performAll ((List.range' n k).map Config.operation) s = .next t) :
    core.run k { s with environment := .free n } = .next { t with environment := .free (n + k) } := by
  induction k generalizing n s with
  | zero =>
    cases h
    rfl
  | succ k ih =>
    obtain ⟨u, hu, hops⟩ := performAll_cons h
    have hplan := perform_keeps_plan hu
    have hstep : step { s with environment := .free n } = .next { u with environment := .free (n + 1) } := by
      rw [step_of_comesNext (s := { s with environment := .free n })
        (.inr (.inr ⟨n, hs, rfl, rfl, rfl⟩))]
      refine (perform_withPlan_next hu s.schedule (.free (n + 1))).trans ?_
      rw [hplan]
      rfl
    rw [run_succ_of_step _ hstep, ih (n + 1) u (by rw [hplan]; exact hs) hops, Nat.add_right_comm,
      Nat.add_assoc]

/-- Settles O60: some operation comes next, and both kinds of order are performed as they stand. -/
theorem everyOrderOfOperationsIsARun : Obligations.EveryOrderOfOperationsIsARun := by
  refine ⟨fun s => ?_, run_schedule, fun n k s t hs he h => ?_⟩
  · obtain ⟨op, s', hnext⟩ := exists_comesNext s
    exact ⟨op, s', hnext, step_of_comesNext hnext⟩
  · have hrun := run_free n k s t hs h
    rw [← he] at hrun
    exact hrun

end Sys2Proof.Machine
end
